-- ==== Sys2Proof/Word.lean ====
section
/-! DEFINITION. The widths of the machine's values (spec/00_scope.md R11). -/

namespace Sys2Proof

/-- A memory byte, and a general register (R11: "unsigned 8-bit values"). -/
abbrev Byte := BitVec 8

/-- An instruction word, a call-stack entry and the program counter (R11: 16 bits each). -/
abbrev Word := BitVec 16

/-- An instruction field (R11: 4 bits). -/
abbrev Nibble := BitVec 4

/-- The address field `nnn` (R11: 12 bits). -/
abbrev Addr12 := BitVec 12

/-- The index of a general register, 0 to 15 (R7, R76: what a 4-bit field reaches). -/
abbrev RegIndex := Fin 16

end Sys2Proof
end

