-- ==== Sys2Proof/Syntax.lean ====
section
/-! DEFINITION. The instructions: one constructor for each row of spec/opcode_table.json. -/

namespace Sys2Proof

/-- The four operations of spec/00_scope.md R3, and the catch-all row. -/
inductive Instr where
  /-- HALT, the all-zero halt sentinel (R80, R123). -/
  | halt
  /-- RET, return from subroutine (R81, R124). -/
  | ret
  /-- CALL nnn, call subroutine at the absolute byte address `nnn` (R82, R125). -/
  | call (nnn : Addr12)
  /-- ADD Vx, Vy, add with carry flag (R83, R141). -/
  | add (x y : RegIndex)
  /-- Any word that no other row matches, with the raw word it faults with (R84, R204). -/
  | unimplemented (raw : Word)
  deriving DecidableEq, Repr

end Sys2Proof
end

