-- ==== Sys2Proof/WellFormed.lean ====
section
/-! DEFINITION. Which terms of `Instr` stand for an instruction word. The operands of CALL and ADD cannot be out of
range, since their types are as wide as the fields; the one check is that an `unimplemented` word is none of the
other rows' words. It is written from the masks of spec/30_encoding.md R80 to R84, not from the decoder's nibbles. -/

namespace Sys2Proof

/-- `raw` matches no row of R80 to R83, by their masks and matches (R84). -/
def matchesNoRow (raw : Word) : Bool :=
  (raw &&& 0xFFFF#16) != 0x0000#16 && (raw &&& 0xFFFF#16) != 0x00EE#16 && (raw &&& 0xF000#16) != 0x2000#16
    && (raw &&& 0xF00F#16) != 0x8004#16

/-- The instruction is one that some word decodes to. -/
def Instr.wellFormed : Instr → Bool
  | .halt => true
  | .ret => true
  | .call _ => true
  | .add _ _ => true
  | .unimplemented raw => matchesNoRow raw

end Sys2Proof
end

