-- ==== Sys2Proof/Decode.lean ====
section
/-! DEFINITION. The decoder, the dispatch multiplexer and the encoder (spec/30_encoding.md). -/

namespace Sys2Proof

/-- The decoder's outputs (spec/10_state.md R41, R72). -/
structure Fields where
  c : Nibble
  x : Nibble
  y : Nibble
  d : Nibble
  nnn : Addr12
  deriving DecidableEq, Repr

/-- The decoder: each output bit is one input bit (R72, R73). -/
def fieldsOf (instr : Word) : Fields where
  c := instr.extractLsb' 12 4
  x := instr.extractLsb' 8 4
  y := instr.extractLsb' 4 4
  d := instr.extractLsb' 0 4
  nnn := instr.extractLsb' 0 12

/-- `c<<12 | x<<8 | y<<4 | d`, as R74 writes it. -/
def reassemble (f : Fields) : Word :=
  (f.c.setWidth 16 <<< 12) ||| (f.x.setWidth 16 <<< 8) ||| (f.y.setWidth 16 <<< 4) ||| f.d.setWidth 16

/-- The five select signals of the dispatch multiplexer (spec/10_state.md R41, R78). -/
structure Select where
  isHalt : Bool
  isRet : Bool
  isCall : Bool
  isAdd : Bool
  isUnimpl : Bool
  deriving DecidableEq, Repr

/-- The dispatch multiplexer (R78). -/
def select (f : Fields) : Select :=
  let isHalt := f.c == 0x0#4 && f.x == 0x0#4 && f.y == 0x0#4 && f.d == 0x0#4
  let isRet := f.c == 0x0#4 && f.x == 0x0#4 && f.y == 0xE#4 && f.d == 0xE#4
  let isCall := f.c == 0x2#4
  let isAdd := f.c == 0x8#4 && f.d == 0x4#4
  { isHalt, isRet, isCall, isAdd, isUnimpl := !(isHalt || isRet || isCall || isAdd) }

/-- The instruction an instruction word stands for: total, every word has one (R73, R77, R84). -/
def decodeWord (instr : Word) : Instr :=
  let f := fieldsOf instr
  let sel := select f
  if sel.isHalt then .halt
  else if sel.isRet then .ret
  else if sel.isCall then .call f.nnn
  else if sel.isAdd then .add f.x.toFin f.y.toFin
  else .unimplemented instr

/-- A word from its two bytes, the one at the lower address first (spec/20_memory.md R53). -/
def wordOfBytes (hi lo : Byte) : Word :=
  (hi.setWidth 16 <<< 8) ||| lo.setWidth 16

/-- The byte a word stores at its lower address, bits [15:8] (R53). -/
def highByte (w : Word) : Byte := w.extractLsb' 8 8

/-- The byte a word stores at its higher address, bits [7:0] (R53). -/
def lowByte (w : Word) : Byte := w.extractLsb' 0 8

/-- Why a list of bytes holds no instruction. The bits of a whole word are never a reason (R73). -/
inductive DecodeReject where
  /-- Fewer than two bytes: every instruction is one 16-bit word (R70, R86). -/
  | truncated
  deriving DecidableEq, Repr

/-- Reading one instruction from the front of a list of bytes; it consumes exactly two (R86). -/
def decodeBytes : List Byte → Except DecodeReject (Instr × List Byte)
  | hi :: lo :: rest => .ok (decodeWord (wordOfBytes hi lo), rest)
  | _ => .error .truncated

/-- The word of an instruction (R80 to R84, R87). -/
def encode : Instr → Word
  | .halt => 0x0000#16
  | .ret => 0x00EE#16
  | .call nnn => 0x2000#16 ||| nnn.setWidth 16
  | .add x y => 0x8004#16 ||| BitVec.ofNat 16 x.val <<< 8 ||| BitVec.ofNat 16 y.val <<< 4
  | .unimplemented raw => raw

/-- An instruction's two bytes as memory holds them, high byte first (R70, R53). -/
def encodeBytes (i : Instr) : List Byte := [highByte (encode i), lowByte (encode i)]

/-- The word the host's table word stands for: the low `nbits` bits of `w`, zero above. -/
def tableWord (nbits w : Nat) : Word := BitVec.ofNat 16 (w % 2 ^ nbits)

/-- The decoder on a row of spec/opcode_table.json, its word laid out as memory holds it. -/
def decodeTableWord (nbits w : Nat) : Option Instr :=
  match decodeBytes [highByte (tableWord nbits w), lowByte (tableWord nbits w)] with
  | .ok (i, _) => some i
  | .error _ => none

end Sys2Proof
end

