-- ==== Sys2Proof/Config.lean ====
section
/-! DEFINITION. The implementation parameters of spec/00_scope.md section 3, at the values the spec gives, and
the reset contents of spec/10_state.md R34. -/

namespace Sys2Proof.Config

/-- `MEM_SIZE`, the memory capacity in bytes (R6; log entry 18). -/
def memSize : Nat := 4096

/-- `FLAG_INDEX`: the register that is `VF` (R8). -/
def flagIndex : RegIndex := 15

/-- The default `STACK_DEPTH` (R9, decision D2). A state carries its own depth, the length of its stack array,
and only the state after reset uses this number (log entry 1, DESIGN CHOICE). -/
def stackDepth : Nat := 16

/-- The default `ENTRY`, the program counter after reset (R10). -/
def entry : Word := 0x0000#16

/-- What a memory byte holds after reset, so what an address that no cell lists reads as (R34, decision D4;
log entry 4, DESIGN CHOICE). -/
def resetByte : Byte := 0x00#8

/-- What every general register holds after reset (R34, decision D3; log entry 3, DESIGN CHOICE). -/
def resetReg : Byte := 0x00#8

/-- What every call-stack entry holds after reset (R34, decision D5; log entry 5, DESIGN CHOICE). -/
def resetStackEntry : Word := 0x0000#16

end Sys2Proof.Config
end

