-- ==== Sys2Proof/Machine/State.lean ====
section
/-! DEFINITION. The architectural state (spec/10_state.md R20: "exactly the following"), why a step stops, and the
state after reset. -/

namespace Sys2Proof.Machine

/-- The reason in `Faulted(reason)` (R30, spec/60_exceptions.md R200). These are states of the hardware, reached by
a step that answers `next`; they are not `Fault`. -/
inductive FaultReason where
  /-- A fetch outside memory (R201). It carries the pc of the failed fetch, which is what FAULT_INFO shows (R31,
  decision D8; log entry 9). -/
  | indexOutOfRange (fetchPc : Word)
  /-- CALL with SP = STACK_DEPTH (R202). -/
  | stackOverflow
  /-- RET with SP = 0 (R203). -/
  | stackUnderflow
  /-- A word that no pattern matches, carrying that word (R204). -/
  | unimplementedOpcode (raw : Word)
  deriving DecidableEq, Repr

/-- `RUN`, the run state of the execution loop (R30). -/
inductive RunState where
  | running
  | halted
  | faulted (reason : FaultReason)
  deriving DecidableEq, Repr

/-- Where a step of the MODEL stops although the hardware has no such state. -/
inductive Fault where
  /-- Raised by CALL and RET, and by nothing else, when SP exceeds STACK_DEPTH, which R28 rules out of every
  reachable state. Safe: the model stops where the spec describes no machine (log entry 14). -/
  | stackPointerOutsideStack
  deriving DecidableEq, Repr

/-- What the model gives no meaning. -/
inductive Refusal where
  /-- Raised by an arm of `exec` whose instruction has no meaning yet; no arm does. Safe. -/
  | notModelled (mnemonic : String)
  /-- Raised by the host load port for an address at or above MEM_SIZE (R37, decision D22: "a load ... is refused"),
  never by a step. Safe: no block results (log entry 17). -/
  | hostLoadOutOfRange
  /-- Raised by the host load and seed ports after the first step (R37, R38, decision D10: "has no move in the
  model"), never by a step. Safe: no block results (log entry 17). -/
  | hostWriteAfterFirstStep
  deriving DecidableEq, Repr

/-- Memory as the cells that differ from the reset contents, their addresses strictly rising (`Memory.wf`). -/
abbrev Memory := List Host.Cell

/-- The machine state, the tuple `(MEM, V, STACK, SP, pc, RUN)` of spec/00_scope.md R15. The status word and
FAULT_INFO of R31 are views of `run` (Machine/Status.lean). -/
structure State where
  /-- `MEM[0..MEM_SIZE-1]` (R20, R50). -/
  mem : Memory
  /-- `V[0..15]`; `V[15]` is `VF` (R21, R25). -/
  regs : Vector Byte 16
  /-- The program counter (R26). -/
  pc : Word
  /-- `STACK[0..STACK_DEPTH-1]`, oldest entry first. Its length IS `STACK_DEPTH` (R27, R9; log entry 1). -/
  stack : List Word
  /-- The next free slot, 0 when the stack is empty (R28). -/
  sp : Nat
  /-- The run state (R30). -/
  run : RunState
  deriving DecidableEq, Repr

/-- `STACK_DEPTH` of this machine: no operation resizes the array (R9, R27). -/
def State.stackDepth (s : State) : Nat := s.stack.length

/-- `reset(entry)` of spec/70_reset_and_hazards.md R250, for a block whose stack has `depth` entries. -/
def State.resetWith (entry : Word) (depth : Nat) : State where
  mem := []
  regs := Vector.replicate 16 Config.resetReg
  pc := entry
  stack := List.replicate depth Config.resetStackEntry
  sp := 0
  run := .running

/-- The machine right after reset, every parameter at its default (R34, R9, R10). -/
def State.reset : State := State.resetWith Config.entry Config.stackDepth

end Sys2Proof.Machine
end

