-- ==== Sys2Proof/Machine/Ops.lean ====
section
/-! DEFINITION. The named operations over memory, the pc, the call stack and the run state. -/

namespace Sys2Proof.Machine

/-! ## State updates: each writes what its name says and nothing else -/

def State.withMem (s : State) (m : Memory) : State := { s with mem := m }

def State.withRegs (s : State) (v : Vector Byte 16) : State := { s with regs := v }

def State.withPc (s : State) (pc : Word) : State := { s with pc := pc }

def State.withStack (s : State) (stack : List Word) : State := { s with stack := stack }

def State.withSp (s : State) (sp : Nat) : State := { s with sp := sp }

def State.withRun (s : State) (run : RunState) : State := { s with run := run }

/-! ## What an operation inside a step ends in -/

/-- An operation completes, raises a fault of the hardware (`raise Fault(reason)`, spec/00_scope.md R14), or meets a
state the hardware does not have. -/
inductive OpResult (α : Type) where
  | ok (a : α)
  | raise (r : FaultReason)
  | stop (f : Fault)
  deriving DecidableEq, Repr

/-- Carrying on with what an operation answered; after a fault nothing more happens in the step (R14). -/
def OpResult.map {α β : Type} (f : α → β) : OpResult α → OpResult β
  | .ok a => .ok (f a)
  | .raise r => .raise r
  | .stop e => .stop e

/-! ## Faults (spec/60_exceptions.md) -/

/-- FAULT ENTRY (R206): `RUN <- Faulted(reason)`, and with it the status word; nothing is saved, no vector is read,
and the pc stays where it is. `s` holds the updates the step made before the fault (spec/40_execution_cycle.md R108).
There is no return from a fault: only reset leaves it (R208). -/
def raiseFault (r : FaultReason) (s : State) : State := s.withRun (.faulted r)

/-- How a dispatched operation ends the step: its own next state, or fault entry from the state `s` the operation
was dispatched in (R105, R206). -/
def conclude (s : State) : OpResult State → Host.Outcome State Fault Refusal
  | .ok t => .next t
  | .raise r => .next (raiseFault r s)
  | .stop f => .fault f

/-! ## Memory (spec/20_memory.md) -/

/-- `MEM[a]`. An address no cell lists holds the reset contents (R34). -/
def Memory.byteAt : Memory → Nat → Byte
  | [], _ => Config.resetByte
  | (a', b) :: m, a => if a = a' then b else Memory.byteAt m a

/-- A cell in front of a memory, left out where it would repeat the reset contents. -/
def Memory.consCell (a : Nat) (b : Byte) (m : Memory) : Memory :=
  if b = Config.resetByte then m else (a, b) :: m

/-- `MemWrite(a, 1, b)` (spec/00_scope.md R14): only the host load port writes memory (R51, R55). -/
def Memory.write : Memory → Nat → Byte → Memory
  | [], a, b => Memory.consCell a b []
  | (a', b') :: m, a, b =>
    if a < a' then Memory.consCell a b ((a', b') :: m)
    else if a = a' then Memory.consCell a b m
    else (a', b') :: Memory.write m a b

/-- The canonical form: addresses strictly rising and below MEM_SIZE, and no cell that repeats the reset contents. -/
abbrev Memory.wf (m : Memory) : Prop :=
  m.Pairwise (fun p q => p.1 < q.1) ∧ ∀ p ∈ m, p.1 < Config.memSize ∧ p.2 ≠ Config.resetByte

/-- `a` is an address of the memory (R6, R50). -/
abbrev inMemory (a : Nat) : Prop := a < Config.memSize

/-- `MEM[a], MEM[a+1], …, MEM[a+n-1]`. -/
def bytesFrom (m : Memory) (a : Nat) : Nat → List Byte
  | 0 => []
  | n + 1 => Memory.byteAt m a :: bytesFrom m (a + 1) n

/-- The unsigned integer whose bytes these are, the first most significant (R52, R53). -/
def bigEndian (bs : List Byte) : Nat := bs.foldl (fun acc b => acc * 256 + b.toNat) 0

/-- `MemRead(addr, n)` (R52): every byte address is checked before any value is returned, as a true integer that does
not wrap. -/
def memRead (m : Memory) (addr : Word) (n : Nat) : OpResult Nat :=
  if ∀ k < n, inMemory (addr.toNat + k) then .ok (bigEndian (bytesFrom m addr.toNat n))
  else .raise (.indexOutOfRange addr)

/-! ## Fetch and advance (spec/40_execution_cycle.md) -/

/-- `instr <- MemRead(pc, 2)` (R101, spec/30_encoding.md R71). -/
def fetch (s : State) : OpResult Word := (memRead s.mem s.pc 2).map (BitVec.ofNat 16)

/-- `pc <- pc + 2`, modulo 2^16 (R103, R107). -/
def advance (s : State) : State := s.withPc (s.pc + 2#16)

/-- A step request in a terminal run state: "does nothing" (R106; log entry 8). -/
def ignoreStep (s : State) : Host.Outcome State Fault Refusal := .next s

/-! ## The call stack (spec/41_control_transfer.md) -/

/-- `push(a)` (R120). -/
def push (a : Word) (s : State) : OpResult State :=
  if s.sp = s.stackDepth then .raise .stackOverflow
  else if s.sp < s.stackDepth then .ok ((s.withStack (s.stack.set s.sp a)).withSp (s.sp + 1))
  else .stop .stackPointerOutsideStack

/-- `pop()` (R121): the entry read and the state with SP one lower; the entry is not cleared. -/
def pop (s : State) : OpResult (Word × State) :=
  if s.sp = 0 then .raise .stackUnderflow
  else match s.stack[s.sp - 1]? with
    | some a => .ok (a, s.withSp (s.sp - 1))
    | none => .stop .stackPointerOutsideStack

/-! ## Placing an instruction for the next step -/

/-- The pc the next step can fetch at: the pc itself where both bytes are in memory, else address 0. -/
def fetchablePc (pc : Word) : Word := if inMemory (pc.toNat + 1) then pc else 0#16

/-- A word stored at an address as memory holds it, high byte first (spec/20_memory.md R53). -/
def Memory.writeWord (m : Memory) (a : Nat) (w : Word) : Memory :=
  Memory.write (Memory.write m a (highByte w)) (a + 1) (lowByte w)

/-- `s` with `w` where the next step fetches: a running machine whose pc is fetchable (log entry 15). -/
def placeWord (s : State) (w : Word) : State :=
  let pc := fetchablePc s.pc
  ((s.withMem (Memory.writeWord s.mem pc.toNat w)).withPc pc).withRun .running

end Sys2Proof.Machine
end

