-- ==== Sys2Proof/Machine/Operands.lean ====
section
/-! DEFINITION. The operand forms: a register index and the 12-bit target. There is no other
(spec/30_encoding.md R75, R76). -/

namespace Sys2Proof.Machine

/-- `V[i]` (spec/10_state.md R22). No register is hardwired and none aliases another (R21). -/
def State.reg (s : State) (i : RegIndex) : Byte := s.regs[i]

/-- `V[i] <- v` (spec/10_state.md R23). -/
def State.withReg (s : State) (i : RegIndex) (v : Byte) : State := s.withRegs (s.regs.set i v)

/-- `VF`, the flag register (spec/10_state.md R25). -/
def State.vf (s : State) : Byte := s.reg Config.flagIndex

/-- `zext_16(nnn)`: an absolute byte address, bits [15:12] zero (spec/30_encoding.md R75). -/
def targetOf (nnn : Addr12) : Word := nnn.setWidth 16

end Sys2Proof.Machine
end

