-- ==== Sys2Proof/Machine/Flags.lean ====
section
/-! DEFINITION. The ALU and the one flag (spec/42_arithmetic.md). -/

namespace Sys2Proof.Machine

/-- The 9-bit true sum, 0 to 510 (R140). -/
def trueSum (a b : Byte) : BitVec 9 := a.setWidth 9 + b.setWidth 9

/-- `alu_add(a, b) -> (sum, carry)` (R140). -/
def aluAdd (a b : Byte) : Byte × BitVec 1 :=
  ((trueSum a b).extractLsb' 0 8, (trueSum a b).extractLsb' 8 1)

/-- `zext_8(cy)`: what the flag write stores, 0 or 1 (R141). -/
def flagByte (cy : BitVec 1) : Byte := cy.setWidth 8

/-- `add_with_flag(x, y)` (R141): both operands are read before any write, and the flag write (port F) follows the
result write (port A), so that it wins when x = 15 (R142, decision D6; log entry 12). -/
def addWithFlag (x y : RegIndex) (s : State) : State :=
  let r := aluAdd (s.reg x) (s.reg y)
  (s.withReg x r.1).withReg Config.flagIndex (flagByte r.2)

end Sys2Proof.Machine
end

