-- ==== Sys2Proof/Machine/Arithmetic.lean ====
section
/-! DEFINITION. ADD, the only arithmetic instruction (spec/42_arithmetic.md R147). -/

namespace Sys2Proof.Machine

/-- ADD Vx, Vy (R141). -/
def execAdd (x y : RegIndex) (s : State) : Host.Outcome State Fault Refusal := .next (addWithFlag x y s)

end Sys2Proof.Machine
end

