-- ==== Sys2Proof/Machine/ControlTransfer.lean ====
section
/-! DEFINITION. HALT, RET and CALL (spec/41_control_transfer.md). Each runs after the fetch and after
`pc <- pc + 2`: `s` holds the address of the following instruction. -/

namespace Sys2Proof.Machine

/-- HALT (R123): `RUN <- Halted`. -/
def execHalt (s : State) : Host.Outcome State Fault Refusal := .next (s.withRun .halted)

/-- RET (R124): `pc <- pop()`; the popped address is not checked. -/
def execRet (s : State) : Host.Outcome State Fault Refusal :=
  conclude s ((pop s).map fun p => p.2.withPc p.1)

/-- CALL nnn (R125): `push(pc); pc <- zext_16(nnn)`; the target is not checked. -/
def execCall (nnn : Addr12) (s : State) : Host.Outcome State Fault Refusal :=
  conclude s ((push s.pc s).map fun t => t.withPc (targetOf nnn))

end Sys2Proof.Machine
end

