-- ==== Sys2Proof/Machine/Unimplemented.lean ====
section
/-! DEFINITION. Every word that is not HALT, RET, CALL or ADD (spec/30_encoding.md R84, R85). -/

namespace Sys2Proof.Machine

/-- `raise Fault(UnimplementedOpcode(raw))` (spec/60_exceptions.md R204): nothing else changes. -/
def execUnimplemented (raw : Word) (s : State) : Host.Outcome State Fault Refusal :=
  .next (raiseFault (.unimplementedOpcode raw) s)

end Sys2Proof.Machine
end

