-- ==== Sys2Proof/Machine/Step.lean ====
section
/-! DEFINITION. One step (spec/40_execution_cycle.md R100). -/

namespace Sys2Proof.Machine

/-- Fetch, decode, advance, dispatch (R100); in a terminal run state a step request does nothing (R106). -/
def step (s : State) : Host.Outcome State Fault Refusal :=
  match s.run with
  | .running =>
    match fetch s with
    | .ok instr => exec (decodeWord instr) (advance s)
    | .raise r => conclude s (.raise r)
    | .stop f => conclude s (.stop f)
  | .halted => ignoreStep s
  | .faulted _ => ignoreStep s

/-- `s` with the table word `w` where the next step fetches (log entry 15). -/
def State.withFetchWord (s : State) (nbits w : Nat) : State := placeWord s (tableWord nbits w)

end Sys2Proof.Machine
end

