-- ==== Sys2Proof/Machine/Status.lean ====
section
/-! DEFINITION. What the block shows of its state: the status word, FAULT_INFO and the readback ports
(spec/10_state.md R31, R35, R40). All are views; none is stored. -/

namespace Sys2Proof.Machine

/-- `RUN_STATE`, STATUS[1:0] (R31). -/
def runStateCode : RunState → BitVec 2
  | .running => 0#2
  | .halted => 1#2
  | .faulted _ => 2#2

/-- The code of a fault reason (R31, spec/60_exceptions.md R200). -/
def reasonCode : FaultReason → BitVec 3
  | .indexOutOfRange _ => 1#3
  | .stackOverflow => 2#3
  | .stackUnderflow => 3#3
  | .unimplementedOpcode _ => 4#3

/-- `FAULT_CODE`, STATUS[4:2]: 0 unless Faulted (R31). -/
def faultCode : RunState → BitVec 3
  | .running => 0#3
  | .halted => 0#3
  | .faulted r => reasonCode r

/-- The status word: reserved bits [15:5] read as 0 (R31, decision D9; log entry 10). -/
def statusWord (run : RunState) : Word :=
  ((faultCode run).setWidth 16 <<< 2) ||| (runStateCode run).setWidth 16

/-- `FAULT_INFO` (R31, R200; decision D8). -/
def faultInfo : RunState → Word
  | .running => 0x0000#16
  | .halted => 0x0000#16
  | .faulted (.indexOutOfRange fetchPc) => fetchPc
  | .faulted .stackOverflow => 0x0000#16
  | .faulted .stackUnderflow => 0x0000#16
  | .faulted (.unimplementedOpcode raw) => raw

/-- The width of `sp_out` for a stack of `depth ≥ 1` entries, `ceil(log2(depth + 1))` (spec/00_scope.md R11). -/
def spWidth (depth : Nat) : Nat := Nat.log2 depth + 1

/-- The bits of `sp_out`: 5 of them at the default depth (R35). -/
def spOut (s : State) : BitVec (spWidth s.stackDepth) := BitVec.ofNat (spWidth s.stackDepth) s.sp

/-- The output ports the host may read between steps (R35, R40). The stack's contents are not among them (R40). -/
structure Readback where
  status : Word
  faultInfo : Word
  pcOut : Word
  vOut : Vector Byte 16
  sp : Nat
  deriving DecidableEq, Repr

def readback (s : State) : Readback where
  status := statusWord s.run
  faultInfo := faultInfo s.run
  pcOut := s.pc
  vOut := s.regs
  sp := s.sp

/-- `mem_rd_data` for `mem_rd_addr` (R35, R40); no value for an address that memory does not have (log entry 25). -/
def memReadback (s : State) (addr : Word) : Option Byte :=
  if inMemory addr.toNat then some (Memory.byteAt s.mem addr.toNat) else none

end Sys2Proof.Machine
end

