-- ==== Sys2Proof/Machine/HostPort.lean ====
section
/-! DEFINITION. The block with its input ports: reset, the load port, the seed port and the step request
(spec/10_state.md R35 to R39, spec/70_reset_and_hazards.md R250 to R252). One port acts at a time (log entry 16). -/

namespace Sys2Proof.Machine

/-- Where the host is in R252's order: loading and seeding are allowed after reset and before the first step. -/
inductive Phase where
  | load
  | run
  deriving DecidableEq, Repr

/-- The architectural state with the phase, which is the host protocol's and no part of R20's state. -/
structure Block where
  core : State
  phase : Phase
  deriving DecidableEq, Repr

/-- A request on one of the input ports (R35). -/
inductive HostEvent where
  /-- `rst` with `entry`. -/
  | rst (entry : Word)
  /-- `ld_we` with `ld_addr` and `ld_data`. -/
  | load (addr : Word) (data : Byte)
  /-- `rs_we` with `rs_idx` and `rs_data`. -/
  | seed (idx : RegIndex) (data : Byte)
  /-- `step`. -/
  | step
  deriving DecidableEq, Repr

/-- Reset: every piece of state at its R34 value, in any run state (R36, R250). The block keeps its stack capacity. -/
def portReset (entry : Word) (b : Block) : Host.Outcome Block Fault Refusal :=
  .next { core := State.resetWith entry b.core.stackDepth, phase := .load }

/-- The memory load port (R37, decisions D10 and D22). -/
def portLoad (addr : Word) (data : Byte) (b : Block) : Host.Outcome Block Fault Refusal :=
  match b.phase with
  | .run => .refused .hostWriteAfterFirstStep
  | .load =>
    if inMemory addr.toNat then
      .next { b with core := b.core.withMem (Memory.write b.core.mem addr.toNat data) }
    else .refused .hostLoadOutOfRange

/-- The register seed port (R38); any 8-bit value, VF included (R25, decision D21). -/
def portSeed (idx : RegIndex) (data : Byte) (b : Block) : Host.Outcome Block Fault Refusal :=
  match b.phase with
  | .run => .refused .hostWriteAfterFirstStep
  | .load => .next { b with core := b.core.withReg idx data }

/-- The step request (R39): one step while Running, nothing otherwise. -/
def portStep (b : Block) : Host.Outcome Block Fault Refusal :=
  match b.core.run with
  | .running =>
    match step b.core with
    | .next s => .next { core := s, phase := .run }
    | .fault f => .fault f
    | .refused r => .refused r
  | .halted => .next b
  | .faulted _ => .next b

/-- What one request does. -/
def Block.apply (b : Block) : HostEvent → Host.Outcome Block Fault Refusal
  | .rst entry => portReset entry b
  | .load addr data => portLoad addr data b
  | .seed idx data => portSeed idx data b
  | .step => portStep b

/-- A list of requests in order, stopping where one stops. -/
def Block.applyAll (b : Block) : List HostEvent → Host.Outcome Block Fault Refusal
  | [] => .next b
  | e :: es =>
    match b.apply e with
    | .next b' => Block.applyAll b' es
    | .fault f => .fault f
    | .refused r => .refused r

/-- The block right after reset. -/
def Block.reset : Block := { core := State.reset, phase := .load }

end Sys2Proof.Machine
end

