-- ==== Sys2Proof/Machine/Assembler.lean ====
section
/-! DEFINITION. The notation of spec/30_encoding.md section 7 (R87 to R89, decision D14): statements, labels,
directives and disassembly. It is no part of the hardware, and no step uses it (log entry 23). -/

namespace Sys2Proof.Machine

/-- The operand of `CALL`: a number, or a label that stands for its byte address (R87). -/
inductive AsmTarget where
  | addr (n : Nat)
  | label (name : String)
  deriving DecidableEq, Repr

/-- One statement: a label, a mnemonic or a directive (R87, R88). R88 gives `.org` no range, so it takes any address
here (DESIGN CHOICE, log entry 28). R87 lets a label be used as `addr` and R88 writes `.org addr` without saying
whether that is the same operand: here `.org` takes a number only, and CALL alone takes a label (DESIGN CHOICE, log
entry 29). -/
inductive AsmStmt where
  | label (name : String)
  | halt
  | ret
  | call (target : AsmTarget)
  | add (x y : RegIndex)
  | org (addr : Nat)
  | word (v : Word)
  | byte (b : Byte)
  deriving DecidableEq, Repr

/-- The labels and their addresses, the assembly address starting at `a`. -/
def labelsFrom : Nat → List AsmStmt → List (String × Nat)
  | _, [] => []
  | a, .label name :: rest => (name, a) :: labelsFrom a rest
  | _, .org addr :: rest => labelsFrom addr rest
  | a, .byte _ :: rest => labelsFrom (a + 1) rest
  | a, .halt :: rest => labelsFrom (a + 2) rest
  | a, .ret :: rest => labelsFrom (a + 2) rest
  | a, .call _ :: rest => labelsFrom (a + 2) rest
  | a, .add _ _ :: rest => labelsFrom (a + 2) rest
  | a, .word _ :: rest => labelsFrom (a + 2) rest

/-- A target's byte address. A label that no statement defines has none, and its CALL is refused, where R87 says
nothing (DESIGN CHOICE, log entry 29). -/
def resolve (labels : List (String × Nat)) : AsmTarget → Option Nat
  | .addr n => some n
  | .label name => labels.lookup name

/-- `CALL addr`: "`addr` in 0x000 to 0xFFF. Otherwise the assembler refuses it." (R87) -/
def asmCall (labels : List (String × Nat)) (target : AsmTarget) : Option Instr :=
  match resolve labels target with
  | none => none
  | some n => if n < 4096 then some (.call (BitVec.ofNat 12 n)) else none

/-- The bytes a statement emits, or none where it is refused (R87, R88). -/
def asmBytes (labels : List (String × Nat)) : AsmStmt → Option (List Byte)
  | .label _ => some []
  | .org _ => some []
  | .halt => some (encodeBytes .halt)
  | .ret => some (encodeBytes .ret)
  | .call target => (asmCall labels target).map encodeBytes
  | .add x y => some (encodeBytes (.add x y))
  | .word v => some [highByte v, lowByte v]
  | .byte b => some [b]

/-- Bytes at rising addresses from `a`. -/
def placeBytes (a : Nat) : List Byte → List Host.Cell
  | [] => []
  | b :: bs => (a, b) :: placeBytes (a + 1) bs

/-- The bytes of a program and where they go, the assembly address starting at `a`. -/
def assembleFrom (labels : List (String × Nat)) : Nat → List AsmStmt → Option (List Host.Cell)
  | _, [] => some []
  | _, .org addr :: rest => assembleFrom labels addr rest
  | a, stmt :: rest =>
    match asmBytes labels stmt with
    | none => none
    | some bs => (assembleFrom labels (a + bs.length) rest).map (placeBytes a bs ++ ·)

/-- A program's bytes, starting at address 0 until an `.org`; refused where a label is defined twice (DESIGN CHOICE,
log entry 23), and at any address an `.org` gives (DESIGN CHOICE, log entry 28). -/
def assemble (program : List AsmStmt) : Option (List Host.Cell) :=
  let labels := labelsFrom 0 program
  if (labels.map Prod.fst).Nodup then assembleFrom labels 0 program else none

/-- A program's bytes as requests on the load port, in order (spec/70_reset_and_hazards.md R252). DESIGN CHOICE, log
entry 28: `ld_addr` has 16 bits (R35) and the spec says nothing of an offset of 0x10000 or above, which does not fit
it; such a program is refused here as a whole, and its offset never wraps to a low address. -/
def loadRequests : List Host.Cell → Option (List HostEvent)
  | [] => some []
  | (a, b) :: cells =>
    if a < 0x10000 then (loadRequests cells).map (.load (BitVec.ofNat 16 a) b :: ·) else none

/-- Disassembly: an unimplemented word is a `.word`, not a mnemonic (R89). -/
def disassemble (w : Word) : AsmStmt :=
  match decodeWord w with
  | .halt => .halt
  | .ret => .ret
  | .call nnn => .call (.addr nnn.toNat)
  | .add x y => .add x y
  | .unimplemented raw => .word raw

/-- A hexadecimal digit as R87 writes it: 0-9, A-F. -/
def hexChar (n : RegIndex) : Char := "0123456789ABCDEF".toList.getD n.val '0'

/-- Four hexadecimal digits, most significant first. -/
def hexDigits4 (w : Word) : List Char :=
  let f := fieldsOf w
  [hexChar f.c.toFin, hexChar f.x.toFin, hexChar f.y.toFin, hexChar f.d.toFin]

/-- The text of a disassembled word: the mnemonics of R87, and `.word 0xhhhh` (R89). -/
def disassemblyText (w : Word) : List Char :=
  match decodeWord w with
  | .halt => "HALT".toList
  | .ret => "RET".toList
  | .call nnn => "CALL 0x".toList ++ (hexDigits4 (targetOf nnn)).drop 1
  | .add x y => "ADD V".toList ++ [hexChar x] ++ ", V".toList ++ [hexChar y]
  | .unimplemented raw => ".word 0x".toList ++ hexDigits4 raw

/-- The value of a decimal digit. -/
def decimalDigit (ch : Char) : Option Nat :=
  if '0' ≤ ch ∧ ch ≤ '9' then some (ch.toNat - '0'.toNat) else none

/-- The value of a hexadecimal digit; letters are case-insensitive (R87). -/
def hexDigit (ch : Char) : Option Nat :=
  if '0' ≤ ch ∧ ch ≤ '9' then some (ch.toNat - '0'.toNat)
  else if 'A' ≤ ch ∧ ch ≤ 'F' then some (ch.toNat - 'A'.toNat + 10)
  else if 'a' ≤ ch ∧ ch ≤ 'f' then some (ch.toNat - 'a'.toNat + 10)
  else none

/-- A register name: `V0` to `V9` and `VA` to `VF`, letters case-insensitive (R87). -/
def parseRegister : List Char → Option RegIndex
  | [v, ch] => if v = 'V' ∨ v = 'v' then (hexDigit ch).map (Fin.ofNat 16) else none
  | _ => none

/-- Digits in a base, most significant first. -/
def parseDigits (base : Nat) (digit : Char → Option Nat) : Nat → List Char → Option Nat
  | acc, [] => some acc
  | acc, ch :: rest =>
    match digit ch with
    | none => none
    | some n => parseDigits base digit (acc * base + n) rest

/-- A number: decimal, or hexadecimal with a `0x` prefix (R87). R87 says of register names that letters are
case-insensitive; here a number's hexadecimal digits are too, and its prefix is only `0x` (DESIGN CHOICE, log
entry 29). -/
def parseNumber : List Char → Option Nat
  | [] => none
  | '0' :: 'x' :: ch :: rest => parseDigits 16 hexDigit 0 (ch :: rest)
  | chars => parseDigits 10 decimalDigit 0 chars

end Sys2Proof.Machine
end

