-- ==== Sys2Proof/Safety.lean ====
section
/-! DEFINITION. Runs, well-formed states, and what counts as a safe run, in the terms the claims use. -/

namespace Sys2Proof.Machine

/-! ## States -/

/-- The shape the spec gives every state: memory in canonical form, a stack of at least one entry (R9), and
SP within it (R28). -/
abbrev State.WF (s : State) : Prop := Memory.wf s.mem ∧ 1 ≤ s.stackDepth ∧ s.sp ≤ s.stackDepth

/-- The run has ended (R257). -/
abbrev RunEnded (s : State) : Prop := s.run ≠ .running

/-- The machine is Running and its next step fetches the word `w`, both bytes in memory (R101, R53). -/
abbrev NextWord (s : State) (w : Word) : Prop :=
  s.run = .running ∧ inMemory (s.pc.toNat + 1) ∧ Memory.byteAt s.mem s.pc.toNat = highByte w ∧
    Memory.byteAt s.mem (s.pc.toNat + 1) = lowByte w

/-- The return addresses still to be popped, `STACK[0]` to `STACK[SP-1]` (R28). -/
def liveEntries (s : State) : List Word := s.stack.take s.sp

/-- The two states differ at most in stale stack entries, those at or above SP (R29). -/
abbrev SameButStale (s t : State) : Prop :=
  s.mem = t.mem ∧ s.regs = t.regs ∧ s.pc = t.pc ∧ s.sp = t.sp ∧ s.run = t.run ∧ s.stackDepth = t.stackDepth ∧
    liveEntries s = liveEntries t

/-- Every byte of memory reads the same in the two states. -/
def SameMemory (s t : State) : Prop := ∀ a, Memory.byteAt t.mem a = Memory.byteAt s.mem a

/-- Every general register reads the same in the two states. -/
def SameRegisters (s t : State) : Prop := ∀ i, t.reg i = s.reg i

/-! ## Runs -/

/-- A move of the machine: one step from a Running state. A terminal state has none: "a terminal state has no
successor" (spec/40_execution_cycle.md R106; log entry 8). -/
def Transition (s t : State) : Prop := s.run = .running ∧ step s = .next t

/-- `n` moves from `s` end in `t`, and `p` holds in the first state and in every state on the way. -/
inductive MovesWithin (p : State → Prop) : Nat → State → State → Prop where
  | done {s : State} : p s → MovesWithin p 0 s s
  | move {n : Nat} {s t u : State} : p s → Transition s t → MovesWithin p n t u → MovesWithin p (n + 1) s u

/-- `n` moves from `s` end in `t`. -/
def Moves (n : Nat) (s t : State) : Prop := MovesWithin (fun _ => True) n s t

/-- `t` is reached from `s` by moves. -/
def Reaches (s t : State) : Prop := ∃ n, Moves n s t

/-- What the host can have prepared when it asks for the first step: the reset state of some block, with any memory
image and any registers (spec/70_reset_and_hazards.md R252). -/
def Prepared (s : State) : Prop :=
  ∃ entry depth m v, 1 ≤ depth ∧ Memory.wf m ∧ s = ((State.resetWith entry depth).withMem m).withRegs v

/-- A state that a run goes through. -/
def Reachable (s : State) : Prop := ∃ s₀, Prepared s₀ ∧ Reaches s₀ s

/-- A safe run: it goes through no Faulted state. -/
def SafeRun (s₀ : State) : Prop := ∀ s, Reaches s₀ s → ∀ r, s.run ≠ .faulted r

end Sys2Proof.Machine
end

