-- ==== Sys2Proof/Certificates/Slice0/Obligations.lean ====
section
/-! DEFINITION. The statements for the provers. Each docstring names the rule of spec/ it comes from, and the log
entry where a clause is the model's or the spec's own choice. -/

open Sys2Proof Sys2Proof.Machine

/-! ## Encoding -/

/-- R72: the five outputs of the decoder, by the formulas over unsigned integers. -/
def Obligations.DecoderFieldsFollowTheFormulas : Prop :=
  ∀ v : Word,
    (fieldsOf v).c.toNat = v.toNat / 4096 % 16 ∧ (fieldsOf v).x.toNat = v.toNat / 256 % 16 ∧
    (fieldsOf v).y.toNat = v.toNat / 16 % 16 ∧ (fieldsOf v).d.toNat = v.toNat % 16 ∧
    (fieldsOf v).nnn.toNat = v.toNat % 4096

/-- R74 (derived in the spec from R72): the nibbles reassemble to the word, and `nnn` is `{x, y, d}`. -/
def Obligations.NibblesReassembleToTheWord : Prop :=
  ∀ v : Word,
    reassemble (fieldsOf v) = v ∧
    (fieldsOf v).nnn.toNat = (fieldsOf v).x.toNat * 256 + (fieldsOf v).y.toNat * 16 + (fieldsOf v).d.toNat

/-- R78, R79 (derived in the spec): exactly one of the five select signals is 1, for every tuple of fields. -/
def Obligations.ExactlyOneSelectSignal : Prop :=
  ∀ f : Fields,
    [(select f).isHalt, (select f).isRet, (select f).isCall, (select f).isAdd, (select f).isUnimpl].count true = 1

/-- R80 to R83: which words decode to HALT, RET, CALL nnn and ADD Vx, Vy, by pattern and by mask and match. -/
def Obligations.OpcodePatternsDecodeExactly : Prop :=
  ∀ w : Word,
    (decodeWord w = .halt ↔ w = 0x0000#16) ∧
    (decodeWord w = .ret ↔ w = 0x00EE#16) ∧
    (∀ nnn : Addr12, decodeWord w = .call nnn ↔ w.toNat = 0x2000 + nnn.toNat) ∧
    ((∃ nnn, decodeWord w = .call nnn) ↔ w &&& 0xF000#16 = 0x2000#16) ∧
    (∀ x y : RegIndex, decodeWord w = .add x y ↔ w.toNat = 0x8004 + x.val * 256 + y.val * 16) ∧
    ((∃ x y, decodeWord w = .add x y) ↔ w &&& 0xF00F#16 = 0x8004#16)

/-- R84 (its count is derived in the spec): a word that matches none of the four masks decodes to the catch-all with
that very word, no other word does, and there are 61182 of them. -/
def Obligations.UnimplementedWordsAreTheRest : Prop :=
  (∀ w raw : Word, decodeWord w = .unimplemented raw ↔ raw = w ∧ matchesNoRow w = true) ∧
  (Finset.univ.filter fun w : Word => decodeWord w = .unimplemented w).card = 61182

/-- R70, R80 to R88: no bit of an encoding is dropped. Decoding the bytes of a well-formed instruction, whatever
follows them, gives the instruction with every operand, and consumes exactly its two bytes. -/
def Obligations.DecodeOfEncodeIsTheInstruction : Prop :=
  ∀ (i : Instr) (rest : List Byte), i.wellFormed = true → decodeBytes (encodeBytes i ++ rest) = .ok (i, rest)

/-- R73, R74, R86: any two bytes decode, to a well-formed instruction whose bytes they are; fewer are rejected. -/
def Obligations.EncodeOfDecodeIsTheWord : Prop :=
  (∀ (hi lo : Byte) (rest : List Byte), ∃ i : Instr,
    decodeBytes (hi :: lo :: rest) = .ok (i, rest) ∧ i.wellFormed = true ∧ encodeBytes i = [hi, lo]) ∧
  (∀ bs : List Byte, bs.length < 2 → decodeBytes bs = .error .truncated)

/-- Words of the tables of spec/95_test_vectors.md section 2.2, written out (a sanity statement). -/
def Obligations.SpecWordsDecode : Prop :=
  decodeWord 0b0000000000000000#16 = .halt ∧
  decodeWord 0b0000000011101110#16 = .ret ∧
  decodeWord 0b0010111111111111#16 = .call 0xFFF#12 ∧
  decodeWord 0b1000000000010100#16 = .add 0 1 ∧
  decodeWord 0b0000111011101110#16 = .unimplemented 0x0EEE#16 ∧
  decodeWord 0b1000000000010101#16 = .unimplemented 0x8015#16

/-! ## The execution cycle -/

/-- R100, R103: where the two bytes at the pc are in memory and decode to `i`, the step is `i`'s operation on the
state whose pc has advanced by 2. -/
def Obligations.StepRunsTheDecodedInstruction : Prop :=
  ∀ (s : State) (i : Instr) (rest : List Byte),
    s.run = .running → s.pc.toNat + 1 < 4096 →
    decodeBytes [Memory.byteAt s.mem s.pc.toNat, Memory.byteAt s.mem (s.pc.toNat + 1)] = .ok (i, rest) →
    step s = exec i { s with pc := s.pc + 2#16 }

/-- R71: the word at pc is `MemRead(pc, 2)`, that is `(MEM[pc] << 8) | MEM[pc+1]`, at every fetch. -/
def Obligations.FetchReadsTheWordHighByteFirst : Prop :=
  ∀ s : State, s.pc.toNat + 1 < 4096 →
    ∃ w : Word, fetch s = .ok w ∧ memRead s.mem s.pc 2 = .ok w.toNat ∧
      w.toNat = (Memory.byteAt s.mem s.pc.toNat).toNat * 256 + (Memory.byteAt s.mem (s.pc.toNat + 1)).toNat

/-- R52, R53: `MemRead` faults where any byte is out of memory, with no wrap at 0xFFFF, and else gives the bytes as
one big-endian integer. The reason and its payload are decision D8 (log entry 9), the byte order for lengths other
than 2 decision D16 (log entry 24). -/
def Obligations.MemReadIsBoundedAndBigEndian : Prop :=
  ∀ (m : Memory) (addr : Word) (n : Nat), 0 < n →
    (addr.toNat + n ≤ 4096 → ∃ v, memRead m addr n = .ok v ∧ v < 256 ^ n ∧
      ∀ k < n, v / 256 ^ (n - 1 - k) % 256 = (Memory.byteAt m (addr.toNat + k)).toNat) ∧
    (4096 < addr.toNat + n → memRead m addr n = .raise (.indexOutOfRange addr))

/-- R101, R201: a fetch outside memory ends the run and changes RUN only; FAULT_INFO is the pc of the failed fetch.
The reason, its payload and the unmoved pc are decision D8 (log entry 9). -/
def Obligations.FetchOutsideMemoryFaultsInPlace : Prop :=
  ∀ s : State, s.run = .running → 4096 ≤ s.pc.toNat + 1 →
    step s = .next { s with run := .faulted (.indexOutOfRange s.pc) } ∧
    faultInfo (.faulted (.indexOutOfRange s.pc)) = s.pc

/-- R109 (its fault rows are derived in the spec, and its first row is decision D8, log entry 9): the pc at the end of
a step, row by row; `pc0` is the pc at its start. -/
def Obligations.NextPcFollowsTheBranchTable : Prop :=
  ∀ s t : State, s.run = .running → step s = .next t →
    (4096 ≤ s.pc.toNat + 1 → t.pc = s.pc) ∧
    (NextWord s 0x0000#16 → t.pc = s.pc + 2#16) ∧
    (NextWord s 0x00EE#16 → 1 ≤ s.sp → s.stack[s.sp - 1]? = some t.pc) ∧
    (NextWord s 0x00EE#16 → s.sp = 0 → t.pc = s.pc + 2#16) ∧
    (∀ nnn : Addr12, NextWord s (encode (.call nnn)) → s.sp < s.stackDepth → t.pc.toNat = nnn.toNat) ∧
    (∀ nnn : Addr12, NextWord s (encode (.call nnn)) → s.sp = s.stackDepth → t.pc = s.pc + 2#16) ∧
    (∀ x y : RegIndex, NextWord s (encode (.add x y)) → t.pc = s.pc + 2#16) ∧
    (∀ w : Word, matchesNoRow w = true → NextWord s w → t.pc = s.pc + 2#16)

/-- R105: after a completed ADD, CALL or RET the machine is Running, after HALT it is Halted, and after anything else
(a fetch outside memory, RET on an empty stack, CALL on a full one, an unimplemented word) it is Faulted. Both
terminal states have no move. -/
def Obligations.RunStateAfterAStep : Prop :=
  (∀ s t : State, s.run = .running → step s = .next t →
    (t.run = .running ↔
      (∃ x y, NextWord s (encode (.add x y))) ∨
      (∃ nnn, NextWord s (encode (.call nnn)) ∧ s.sp < s.stackDepth) ∨
      (NextWord s 0x00EE#16 ∧ 1 ≤ s.sp)) ∧
    (t.run = .halted ↔ NextWord s 0x0000#16)) ∧
  (∀ s : State, s.run = .halted → ¬ ∃ t, Transition s t) ∧
  (∀ (s : State) (r : FaultReason), s.run = .faulted r → ¬ ∃ t, Transition s t)

/-- R106: a step request in a terminal run state changes nothing, the status word included, and the state has no
successor. That the step answers the same state is decision D11 (log entry 8). -/
def Obligations.TerminalStatesIgnoreStepRequests : Prop :=
  ∀ s : State, s.run ≠ .running →
    step s = .next s ∧ (∀ t, step s = .next t → readback t = readback s) ∧ ¬ ∃ t, Transition s t

/-- R112 (derived in the spec): the step is total. From every well-formed state, whatever its run state, pc and
memory, it answers a next state, never a fault of the model and never a refusal. -/
def Obligations.WellFormedStepAnswersNext : Prop :=
  ∀ s : State, s.WF → ∃ t, step s = .next t

/-- Every step keeps a state well-formed: memory in canonical form, a stack of at least one entry whose size never
changes, and SP within it (R9, R27, R28). -/
def Obligations.EveryStepKeepsStatesWellFormed : Prop :=
  ∀ s t : State, s.WF → step s = .next t → t.WF ∧ t.stackDepth = s.stackDepth

/-- The state after reset is well-formed, for every entry point and every stack capacity of at least 1. -/
def Obligations.ResetStatesAreWellFormed : Prop :=
  State.reset.WF ∧ ∀ (entry : Word) (depth : Nat), 1 ≤ depth → (State.resetWith entry depth).WF

/-- R28: SP stays between 0 and STACK_DEPTH in every reachable state; at STACK_DEPTH the stack is full, at 0 it is
empty, and the entries below SP are there. -/
def Obligations.StackPointerStaysInTheStack : Prop :=
  ∀ s : State, Reachable s →
    0 ≤ s.sp ∧ s.sp ≤ s.stackDepth ∧
    (∀ a, push a s = .raise .stackOverflow ↔ s.sp = s.stackDepth) ∧
    (pop s = .raise .stackUnderflow ↔ s.sp = 0) ∧
    (liveEntries s).length = s.sp

/-- R250, R34: what reset leaves. The zeros of memory, registers and stack entries are decisions D4, D3 and D5 (log
entries 4, 3 and 5), and the default capacity 16 is decision D2 (log entry 1). -/
def Obligations.ResetValues : Prop :=
  (∀ (entry : Word) (depth : Nat),
    (∀ a, Memory.byteAt (State.resetWith entry depth).mem a = 0x00#8) ∧
    (∀ i, (State.resetWith entry depth).reg i = 0x00#8) ∧
    (∀ k < depth, (State.resetWith entry depth).stack[k]? = some 0x0000#16) ∧
    (State.resetWith entry depth).stackDepth = depth ∧
    (State.resetWith entry depth).sp = 0 ∧
    (State.resetWith entry depth).pc = entry ∧
    (State.resetWith entry depth).run = .running ∧
    (readback (State.resetWith entry depth)).status = 0x0000#16 ∧
    (readback (State.resetWith entry depth)).faultInfo = 0x0000#16) ∧
  State.reset = State.resetWith 0x0000#16 16

/-- R111 (derived in the spec): return addresses stay at most MEM_SIZE, and every step after the first starts at a pc
of at most MEM_SIZE. -/
def Obligations.PcStaysInRange : Prop :=
  ∀ s t : State, (∀ a ∈ liveEntries s, a.toNat ≤ 4096) → Transition s t →
    (∀ a ∈ liveEntries t, a.toNat ≤ 4096) ∧ (t.run = .running → t.pc.toNat ≤ 4096)

/-- R110 (derived in the spec; that no step checks alignment is decision D7, log entry 13): from an even pc and even
return addresses, the pc at the start of the next step is even exactly when the step was not a CALL with an odd nnn,
and the return addresses stay even. -/
def Obligations.PcParityIsTheProgramsDuty : Prop :=
  ∀ s t : State, s.pc.toNat % 2 = 0 → (∀ a ∈ liveEntries s, a.toNat % 2 = 0) → Transition s t →
    (∀ a ∈ liveEntries t, a.toNat % 2 = 0) ∧
    (t.run = .running →
      (t.pc.toNat % 2 = 0 ↔ ¬ ∃ nnn : Addr12, nnn.toNat % 2 = 1 ∧ NextWord s (encode (.call nnn))))

/-- R113 (derived in the spec): every run ends. From any well-formed Running state with an empty stack, whatever its
memory, registers, pc and stack capacity, at most `(H + 1)^(STACK_DEPTH + 1)` steps reach a terminal state, with
`H = MEM_SIZE / 2 + 1 = 2049`. -/
def Obligations.EveryRunEnds : Prop :=
  ∀ s : State, s.WF → s.run = .running → s.sp = 0 →
    ∃ n t, n ≤ 2050 ^ (s.stackDepth + 1) ∧ Moves n s t ∧ RunEnded t

/-- From R113 and R105: a safe run, one that goes through no Faulted state, ends in Halted. -/
def Obligations.SafeRunsHalt : Prop :=
  ∀ s : State, s.WF → s.run = .running → s.sp = 0 → SafeRun s → ∃ t, Reaches s t ∧ t.run = .halted

/-- R58 (rests on decision D4, log entry 4): a fetch of two bytes that no cell lists halts the machine. -/
def Obligations.UnloadedMemoryHalts : Prop :=
  ∀ s : State, s.run = .running → s.pc.toNat + 1 < 4096 →
    (∀ p ∈ s.mem, p.1 ≠ s.pc.toNat ∧ p.1 ≠ s.pc.toNat + 1) →
    step s = .next { s with run := .halted, pc := s.pc + 2#16 }

/-! ## The call stack and the control-transfer instructions -/

/-- R120: push stores at SP and increments it, or overflows exactly at SP = STACK_DEPTH, storing nothing. -/
def Obligations.PushStoresOrOverflows : Prop :=
  ∀ (a : Word) (s : State),
    (s.sp = s.stackDepth → push a s = .raise .stackOverflow) ∧
    (s.sp < s.stackDepth → ∃ t, push a s = .ok t ∧ t.sp = s.sp + 1 ∧ t.stackDepth = s.stackDepth ∧
      (∀ k, t.stack[k]? = if k = s.sp then some a else s.stack[k]?) ∧
      t.mem = s.mem ∧ t.regs = s.regs ∧ t.pc = s.pc ∧ t.run = s.run)

/-- R121: pop returns `STACK[SP-1]` and decrements SP, clearing nothing, or underflows exactly at SP = 0. -/
def Obligations.PopReadsOrUnderflows : Prop :=
  ∀ s : State,
    (s.sp = 0 → pop s = .raise .stackUnderflow) ∧
    (0 < s.sp → s.sp ≤ s.stackDepth → ∃ a, s.stack[s.sp - 1]? = some a ∧
      pop s = .ok (a, { s with sp := s.sp - 1 }))

/-- R122 (derived in the spec): a pop after a push returns the pushed value, with SP and every entry below it as
before the push; whether push faults depends on SP only. -/
def Obligations.PopAfterPushReturnsTheValue : Prop :=
  (∀ (a : Word) (s t : State), push a s = .ok t →
    ∃ u, pop t = .ok (a, u) ∧ u.sp = s.sp ∧ liveEntries u = liveEntries s) ∧
  (∀ (a b : Word) (s t : State), s.sp = t.sp → s.stackDepth = t.stackDepth →
    (push a s = .raise .stackOverflow ↔ push b t = .raise .stackOverflow))

/-- R123: HALT completes in every state, and changes RUN only. -/
def Obligations.HaltCompletes : Prop :=
  ∀ s : State, exec .halt s = .next { s with run := .halted }

/-- R124: RET completes in every state with a live entry, restoring it as the pc unchecked and clearing nothing; on
an empty stack it faults with the pc, registers, stack and memory as they are; a restored pc of 0xFFF or more
faults at the next fetch. -/
def Obligations.RetCompletesOrUnderflows : Prop :=
  (∀ (s : State) (a : Word), 0 < s.sp → s.stack[s.sp - 1]? = some a →
    exec .ret s = .next { s with pc := a, sp := s.sp - 1 }) ∧
  (∀ s : State, s.sp = 0 → exec .ret s = .next { s with run := .faulted .stackUnderflow }) ∧
  (∀ (s : State) (a : Word), NextWord s 0x00EE#16 → 0 < s.sp → s.stack[s.sp - 1]? = some a → 4095 ≤ a.toNat →
    ∃ t u pc, Transition s t ∧ t.run = .running ∧ Transition t u ∧ u.run = .faulted (.indexOutOfRange pc))

/-- R125: CALL completes in every state with a free slot, for every nnn, odd or even: it pushes the pc it finds and
sets the pc to zext_16(nnn); on a full stack it faults and the pc is not set to nnn. -/
def Obligations.CallCompletesOrOverflows : Prop :=
  (∀ (s : State) (nnn : Addr12), s.sp < s.stackDepth → ∃ t, exec (.call nnn) s = .next t ∧
    t.pc.toNat = nnn.toNat ∧ t.sp = s.sp + 1 ∧
    (∀ k, t.stack[k]? = if k = s.sp then some s.pc else s.stack[k]?) ∧
    t.mem = s.mem ∧ t.regs = s.regs ∧ t.run = s.run) ∧
  (∀ (s : State) (nnn : Addr12), s.sp = s.stackDepth →
    exec (.call nnn) s = .next { s with run := .faulted .stackOverflow })

/-- R202, R203: a CALL on a full stack and a RET on an empty one, as whole steps: the fault comes after the advance,
and the stack, SP and registers are unchanged. -/
def Obligations.StackFaultsComeAfterTheAdvance : Prop :=
  (∀ (s : State) (nnn : Addr12), NextWord s (encode (.call nnn)) → s.sp = s.stackDepth →
    step s = .next { s with pc := s.pc + 2#16, run := .faulted .stackOverflow }) ∧
  (∀ s : State, NextWord s 0x00EE#16 → s.sp = 0 →
    step s = .next { s with pc := s.pc + 2#16, run := .faulted .stackUnderflow })

/-- R126 (derived in the spec), over any run between the two: after a CALL that completes, the first RET back to its
level that completes gives the pc the CALL's address + 2 and SP its value before the CALL. The spec calls a RET
matching by SP alone; that the run between stays at or above that SP is the model's reading (log entry 22). -/
def Obligations.MatchingRetReturnsPastTheCall : Prop :=
  ∀ (s t u v : State) (nnn : Addr12) (n : Nat),
    NextWord s (encode (.call nnn)) → s.sp < s.stackDepth → Transition s t →
    MovesWithin (fun r => t.sp ≤ r.sp) n t u → u.sp = t.sp → NextWord u 0x00EE#16 → Transition u v →
    v.pc = s.pc + 2#16 ∧ v.sp = s.sp ∧ liveEntries v = liveEntries s ∧ v.run = .running

/-- R27: only a completing CALL writes a stack entry, the one at SP, and no step resizes the stack; SP moves only by
one up for that CALL and one down for a completing RET. -/
def Obligations.OnlyCallWritesTheStack : Prop :=
  ∀ s t : State, step s = .next t →
    t.stackDepth = s.stackDepth ∧
    (∀ k, t.stack[k]? ≠ s.stack[k]? →
      k = s.sp ∧ s.sp < s.stackDepth ∧ t.stack[k]? = some (s.pc + 2#16) ∧ ∃ nnn, NextWord s (encode (.call nnn))) ∧
    (t.sp ≠ s.sp →
      (t.sp = s.sp + 1 ∧ ∃ nnn, NextWord s (encode (.call nnn))) ∨ (t.sp + 1 = s.sp ∧ NextWord s 0x00EE#16))

/-- R29 (derived in the spec): stale entries are not observable. Two states that differ at most in entries at or above
SP step to states that do so too, and so agree in everything the host reads back. -/
def Obligations.StaleEntriesAreNotObservable : Prop :=
  ∀ s t s' : State, SameButStale s t → step s = .next s' →
    ∃ t', step t = .next t' ∧ SameButStale s' t' ∧ readback s' = readback t'

/-- SP above STACK_DEPTH is no state of the hardware: there CALL and RET stop under the model's own fault (the model's
choice, log entry 14). -/
def Obligations.ImpossibleStackPointerStopsTheModel : Prop :=
  ∀ s : State, s.stackDepth < s.sp →
    (∀ nnn, exec (.call nnn) s = .fault .stackPointerOutsideStack) ∧
    exec .ret s = .fault .stackPointerOutsideStack

/-! ## The ALU, ADD and the registers -/

/-- R140: the 9-bit true sum, its low 8 bits and its carry, over unsigned integers. -/
def Obligations.AluAddsWithCarry : Prop :=
  ∀ a b : Byte,
    (trueSum a b).toNat = a.toNat + b.toNat ∧
    (aluAdd a b).1.toNat = (a.toNat + b.toNat) % 256 ∧
    ((aluAdd a b).2 = 1#1 ↔ a.toNat + b.toNat > 255)

/-- R141: ADD completes in every state, for every x and y. `V[x]` is the sum modulo 256 of the operands read before
any write, VF is 1 if the true sum exceeds 255 and else 0, and nothing else changes. For x = 15 the flag is what
remains (R142, decision D6, log entry 12). -/
def Obligations.AddWritesSumAndCarry : Prop :=
  ∀ (x y : RegIndex) (s : State), ∃ t, exec (.add x y) s = .next t ∧
    (x ≠ 15 → (t.reg x).toNat = ((s.reg x).toNat + (s.reg y).toNat) % 256) ∧
    t.vf = (if (s.reg x).toNat + (s.reg y).toNat > 255 then 1#8 else 0#8) ∧
    (∀ i, i ≠ x → i ≠ 15 → t.reg i = s.reg i) ∧
    t.mem = s.mem ∧ t.pc = s.pc ∧ t.stack = s.stack ∧ t.sp = s.sp ∧ t.run = s.run

/-- R142, R143, R144 (R142 is decision D6, log entry 12; the others are derived in the spec): ADD where registers
coincide, x = 15, y = 15 and x = y. -/
def Obligations.AddWhereRegistersCoincide : Prop :=
  (∀ (y : RegIndex) (s t : State), exec (.add 15 y) s = .next t →
    (t.vf = 1#8 ∧ s.vf.toNat + (s.reg y).toNat > 255) ∨ (t.vf = 0#8 ∧ s.vf.toNat + (s.reg y).toNat ≤ 255)) ∧
  (∀ s t : State, exec (.add 15 15) s = .next t → t.vf = if s.vf.toNat ≥ 128 then 1#8 else 0#8) ∧
  (∀ (x : RegIndex) (s t : State), x ≠ 15 → exec (.add x 15) s = .next t →
    (t.reg x).toNat = ((s.reg x).toNat + s.vf.toNat) % 256) ∧
  (∀ (x : RegIndex) (s t : State), x ≠ 15 → exec (.add x x) s = .next t →
    (t.reg x).toNat = 2 * (s.reg x).toNat % 256 ∧ t.vf = ((s.reg x) >>> 7))

/-- R145 (derived in the spec): the laws of ADD for x, y ≠ 15 and x ≠ y. -/
def Obligations.AddObeysTheArithmeticLaws : Prop :=
  ∀ (x y : RegIndex) (s t : State), x ≠ 15 → y ≠ 15 → x ≠ y → exec (.add x y) s = .next t →
    (t.reg x).toNat + 256 * t.vf.toNat = (s.reg x).toNat + (s.reg y).toNat ∧
    (∀ t', exec (.add x y) ((s.withReg x (s.reg y)).withReg y (s.reg x)) = .next t' →
      t'.reg x = t.reg x ∧ t'.vf = t.vf) ∧
    (s.reg x = 0#8 → t.reg x = s.reg y ∧ t.vf = 0#8) ∧
    (s.reg y = 0#8 → t.reg x = s.reg x ∧ t.vf = 0#8) ∧
    ((s.reg x).toNat + (s.reg y).toNat = 256 → t.reg x = 0#8 ∧ t.vf = 1#8)

/-- R146, R25 (R146 is derived in the spec): a step leaves VF as it was, or was an ADD and leaves in it the carry of
the operands read before the step, 1 or 0. For x = 15 that the flag remains is decision D6 (log entry 12). -/
def Obligations.FlagIsTheCarryOfTheLastAdd : Prop :=
  ∀ s t : State, step s = .next t →
    ((∀ x y, ¬ NextWord s (encode (.add x y))) → t.vf = s.vf) ∧
    (∀ x y, NextWord s (encode (.add x y)) →
      t.vf = if (s.reg x).toNat + (s.reg y).toNat > 255 then 1#8 else 0#8)

/-- R24: ADD writes `V[x]` and VF and no other register; HALT, RET, CALL and the unimplemented-opcode fault write none,
and read none: with other registers they do the same. -/
def Obligations.RegisterAccessByInstruction : Prop :=
  (∀ (x y : RegIndex) (s t : State), exec (.add x y) s = .next t → ∀ i, i ≠ x → i ≠ 15 → t.reg i = s.reg i) ∧
  (∀ (x y : RegIndex) (s s' t t' : State), s'.reg x = s.reg x → s'.reg y = s.reg y →
    exec (.add x y) s = .next t → exec (.add x y) s' = .next t' → t'.reg x = t.reg x ∧ t'.vf = t.vf) ∧
  (∀ (i : Instr) (s t : State), (∀ x y, i ≠ .add x y) → exec i s = .next t →
    SameRegisters s t ∧ ∀ v, exec i (s.withRegs v) = .next (t.withRegs v))

/-- R24, R127 (no conditional branch): control never depends on the registers. A step of the same machine with any
other register contents gives the same memory, pc, stack, SP and run state. -/
def Obligations.ControlFlowIgnoresRegisters : Prop :=
  ∀ (s t : State) (v : Vector Byte 16), step s = .next t →
    ∃ v', step (s.withRegs v) = .next (t.withRegs v')

/-! ## Faults and status -/

/-- R204: an unimplemented word faults with the full word, after the advance, and changes nothing else. -/
def Obligations.UnimplementedFaultsWithTheRawWord : Prop :=
  (∀ (raw : Word) (s : State),
    exec (.unimplemented raw) s = .next { s with run := .faulted (.unimplementedOpcode raw) }) ∧
  (∀ (w : Word) (s : State), matchesNoRow w = true → NextWord s w →
    step s = .next { s with pc := s.pc + 2#16, run := .faulted (.unimplementedOpcode w) })

/-- R206: fault entry sets RUN, and with it FAULT_CODE and FAULT_INFO; nothing is saved, no other state changes, and
the block stops stepping. -/
def Obligations.FaultEntrySetsRunOnly : Prop :=
  ∀ (r : FaultReason) (s : State),
    raiseFault r s = { s with run := .faulted r } ∧
    faultCode (raiseFault r s).run = reasonCode r ∧
    (∀ raw, r = .unimplementedOpcode raw → faultInfo (raiseFault r s).run = raw) ∧
    ¬ ∃ t, Transition (raiseFault r s) t

/-- R207: faults are precise. After a faulting step the state is the one before it but for RUN and, for a
dispatch-stage fault, the pc advanced by 2. -/
def Obligations.FaultsArePrecise : Prop :=
  ∀ (s t : State) (r : FaultReason), Transition s t → t.run = .faulted r →
    SameMemory s t ∧ SameRegisters s t ∧ t.stack = s.stack ∧ t.sp = s.sp ∧
    (4096 ≤ s.pc.toNat + 1 → t.pc = s.pc) ∧ (s.pc.toNat + 1 < 4096 → t.pc = s.pc + 2#16)

/-- R31, R200 (the layout is decision D9, log entry 10): the fields of the status word, the codes never produced, the
reserved bits, and FAULT_INFO. -/
def Obligations.StatusWordShowsTheRunState : Prop :=
  (∀ run : RunState,
    (statusWord run).toNat % 4 = (match run with | .running => 0 | .halted => 1 | .faulted _ => 2) ∧
    (statusWord run).toNat / 4 % 8 = (match run with
      | .running => 0 | .halted => 0
      | .faulted (.indexOutOfRange _) => 1 | .faulted .stackOverflow => 2
      | .faulted .stackUnderflow => 3 | .faulted (.unimplementedOpcode _) => 4) ∧
    (statusWord run).toNat / 32 = 0) ∧
  (∀ pc raw : Word,
    faultInfo (.faulted (.indexOutOfRange pc)) = pc ∧ faultInfo (.faulted (.unimplementedOpcode raw)) = raw ∧
    faultInfo (.faulted .stackOverflow) = 0#16 ∧ faultInfo (.faulted .stackUnderflow) = 0#16 ∧
    faultInfo .running = 0#16 ∧ faultInfo .halted = 0#16)

/-- The two output words tell every run state from every other (R31, R209). -/
def Obligations.StatusAndFaultInfoDetermineTheRunState : Prop :=
  ∀ r r' : RunState, statusWord r = statusWord r' → faultInfo r = faultInfo r' → r = r'

/-- R11, R35 (the width is derived in the spec): SP fits its output port, 5 bits wide at the default depth. -/
def Obligations.StackPointerFitsItsPort : Prop :=
  (∀ s : State, s.WF → (spOut s).toNat = s.sp) ∧ spWidth 16 = 5

/-! ## Memory and the host's ports -/

/-- R55 (decision D15, log entry 19): no step, and no instruction, changes any byte of memory. -/
def Obligations.NoStepWritesMemory : Prop :=
  (∀ s t : State, step s = .next t → SameMemory s t ∧ t.mem = s.mem) ∧
  (∀ (i : Instr) (s t : State), exec i s = .next t → SameMemory s t ∧ t.mem = s.mem)

/-- R37 (decisions D10 and D22, log entry 17): the load port stores one byte in the load phase and changes nothing
else; an address outside memory, and a load after the first step, are refused. -/
def Obligations.HostLoadStoresOneByte : Prop :=
  ∀ (b : Block) (addr : Word) (data : Byte), Memory.wf b.core.mem →
    (b.phase = .load → addr.toNat < 4096 → ∃ b', b.apply (.load addr data) = .next b' ∧ b'.phase = .load ∧
      Memory.wf b'.core.mem ∧ memReadback b'.core addr = some data ∧
      (∀ addr' ≠ addr, memReadback b'.core addr' = memReadback b.core addr') ∧
      b'.core.regs = b.core.regs ∧ b'.core.pc = b.core.pc ∧ b'.core.stack = b.core.stack ∧
      b'.core.sp = b.core.sp ∧ b'.core.run = b.core.run) ∧
    (b.phase = .load → 4096 ≤ addr.toNat → b.apply (.load addr data) = .refused .hostLoadOutOfRange) ∧
    (b.phase = .run → b.apply (.load addr data) = .refused .hostWriteAfterFirstStep)

/-- R38 (decision D10, log entry 17): the seed port writes one register, any 8-bit value, VF included (decision D21),
in the load phase only. -/
def Obligations.HostSeedWritesOneRegister : Prop :=
  ∀ (b : Block) (idx : RegIndex) (data : Byte),
    (b.phase = .load → ∃ b', b.apply (.seed idx data) = .next b' ∧ b'.phase = .load ∧ b'.core.reg idx = data ∧
      (∀ i ≠ idx, b'.core.reg i = b.core.reg i) ∧ b'.core.mem = b.core.mem ∧ b'.core.pc = b.core.pc ∧
      b'.core.stack = b.core.stack ∧ b'.core.sp = b.core.sp ∧ b'.core.run = b.core.run) ∧
    (b.phase = .run → b.apply (.seed idx data) = .refused .hostWriteAfterFirstStep)

/-- R36, R250 (decision D20; zeros as in log entries 3, 4 and 5): reset from any state of the block, whatever its run
state, gives the reset state with the sampled entry, ready to be loaded. -/
def Obligations.ResetWorksInAnyState : Prop :=
  ∀ (b : Block) (entry : Word), b.apply (.rst entry) =
    .next { core := State.resetWith entry b.core.stack.length, phase := .load }

/-- R39: a step request while Running performs exactly one step and ends the load phase; otherwise it changes
nothing. -/
def Obligations.StepRequestPerformsOneStep : Prop :=
  ∀ b : Block,
    (∀ t, Transition b.core t → b.apply .step = .next { core := t, phase := .run }) ∧
    (b.core.run ≠ .running → b.apply .step = .next b)

/-- R36, R208, R209 (decision D20): no request but reset leaves Halted or Faulted. -/
def Obligations.OnlyResetLeavesATerminalState : Prop :=
  ∀ (es : List HostEvent) (b b' : Block), b.core.run ≠ .running → (∀ e ∈ es, ∀ entry, e ≠ .rst entry) →
    b.applyAll es = .next b' → b'.core.run = b.core.run

/-- R55, R63 (decision D15, log entry 19): after the first step, through any list of requests but reset, memory holds
the image that was loaded. -/
def Obligations.MemoryIsTheLoadedImageThroughoutARun : Prop :=
  ∀ (es : List HostEvent) (b b' : Block), b.phase = .run → (∀ e ∈ es, ∀ entry, e ≠ .rst entry) →
    b.applyAll es = .next b' → b'.core.mem = b.core.mem ∧ b'.phase = .run

/-- R252: after a reset, any list of loads and seeds leaves a state the host may start a run from, still in the load
phase. -/
def Obligations.LoadingPreparesARun : Prop :=
  ∀ (es : List HostEvent) (b b' : Block) (entry : Word), 1 ≤ b.core.stackDepth →
    (∀ e ∈ es, e ≠ .step ∧ ∀ entry', e ≠ .rst entry') →
    b.applyAll (.rst entry :: es) = .next b' → Prepared b'.core ∧ b'.core.pc = entry ∧ b'.phase = .load

/-- R87, R89 (decision D14, log entry 23): disassembling a word and assembling the statement gives the word's bytes,
for all 65536 words. -/
def Obligations.AssemblyOfDisassemblyIsTheWord : Prop :=
  ∀ w : Word, asmBytes [] (disassemble w) = some [highByte w, lowByte w]
end

