-- ==== Sys2Proof/Laws/Assembler.lean ====
section
/-! SUPPORT. What the load requests of an assembled program are. -/

namespace Sys2Proof.Machine

/-- A program has load requests exactly when every byte's offset fits the 16-bit `ld_addr`. -/
theorem loadRequests_isSome_iff (cells : List Host.Cell) :
    (loadRequests cells).isSome ↔ ∀ c ∈ cells, c.1 < 0x10000 := by
  induction cells with
  | nil => simp [loadRequests]
  | cons c cells ih =>
    obtain ⟨a, b⟩ := c
    by_cases h : a < 0x10000 <;> simp [loadRequests, h, ih]

/-- Where it has them, they are one load a byte, in order, each at the byte's own offset: nothing wraps. -/
theorem loadRequests_offsets {cells : List Host.Cell} {es : List HostEvent} (h : loadRequests cells = some es) :
    es = cells.map (fun c => .load (BitVec.ofNat 16 c.1) c.2) ∧
      ∀ c ∈ cells, (BitVec.ofNat 16 c.1).toNat = c.1 := by
  have hfit := (loadRequests_isSome_iff cells).1 (by simp [h])
  refine ⟨?_, fun c hc => Nat.mod_eq_of_lt (hfit c hc)⟩
  clear hfit
  induction cells generalizing es with
  | nil => simpa [loadRequests] using h.symm
  | cons c cells ih =>
    obtain ⟨a, b⟩ := c
    simp only [loadRequests] at h
    split at h
    · obtain ⟨es', h', rfl⟩ := Option.map_eq_some_iff.1 h
      rw [ih h', List.map_cons]
    · simp at h

end Sys2Proof.Machine
end

