-- ==== Sys2Proof/Laws/Memory.lean ====
section
/-! SUPPORT. The laws of memory: every operation keeps the canonical form, and a read after a write. -/

namespace Sys2Proof.Machine

/-- Memory after reset lists nothing, and is in canonical form. -/
theorem Memory.wf_nil : Memory.wf [] := by simp [Memory.wf]

theorem Memory.reset_wf (entry : Word) (depth : Nat) : Memory.wf (State.resetWith entry depth).mem := Memory.wf_nil

theorem Memory.wf_tail {c : Host.Cell} {m : Memory} (h : Memory.wf (c :: m)) : Memory.wf m :=
  ⟨(List.pairwise_cons.1 h.1).2, fun p hp => h.2 p (List.mem_cons_of_mem c hp)⟩

/-- An address below every listed one reads as the reset contents. -/
theorem Memory.byteAt_below {m : Memory} {a : Nat} (h : ∀ p ∈ m, a < p.1) :
    Memory.byteAt m a = Config.resetByte := by
  induction m with
  | nil => rfl
  | cons c m ih =>
    have h1 := h c (by simp)
    have : a ≠ c.1 := by omega
    obtain ⟨a', b'⟩ := c
    simp only [Memory.byteAt, if_neg this]
    exact ih fun p hp => h p (List.mem_cons_of_mem _ hp)

theorem Memory.byteAt_consCell {m : Memory} {a : Nat} (b : Byte) (h : ∀ p ∈ m, a < p.1) (a' : Nat) :
    Memory.byteAt (Memory.consCell a b m) a' = if a' = a then b else Memory.byteAt m a' := by
  unfold Memory.consCell
  split
  · next hb =>
    split
    · next e => rw [e, hb, Memory.byteAt_below h]
    · rfl
  · rfl

/-- READ AFTER WRITE: the byte written where it was written, every other byte as before. -/
theorem Memory.byteAt_write {m : Memory} (hm : Memory.wf m) (a : Nat) (b : Byte) (a' : Nat) :
    Memory.byteAt (Memory.write m a b) a' = if a' = a then b else Memory.byteAt m a' := by
  induction m with
  | nil => exact Memory.byteAt_consCell b (by simp) a'
  | cons c m ih =>
    have hgt := (List.pairwise_cons.1 hm.1).1
    have hrec := ih (Memory.wf_tail hm)
    obtain ⟨k, v⟩ := c
    simp only [Memory.write]
    split
    · next hlt =>
      refine Memory.byteAt_consCell b (fun p hp => ?_) a'
      rcases List.mem_cons.1 hp with rfl | hp
      · exact hlt
      · exact Nat.lt_trans hlt (hgt p hp)
    · split
      · next hne heq =>
        subst heq
        rw [Memory.byteAt_consCell b hgt a']
        simp only [Memory.byteAt]
        split <;> simp_all
      · next h1 h2 =>
        simp only [Memory.byteAt, hrec]
        by_cases hk : a' = k
        · rw [if_pos hk, if_pos hk, if_neg fun e : a' = a => h2 (e.symm.trans hk)]
        · rw [if_neg hk, if_neg hk]

/-- Every cell of a written memory is an old one, or the one written where it is not the reset contents. -/
theorem Memory.mem_write {m : Memory} {a : Nat} {b : Byte} {p : Host.Cell} (h : p ∈ Memory.write m a b) :
    p ∈ m ∨ (p = (a, b) ∧ b ≠ Config.resetByte) := by
  have hcons : ∀ (l : Memory), p ∈ Memory.consCell a b l → p ∈ l ∨ (p = (a, b) ∧ b ≠ Config.resetByte) := by
    intro l hp
    unfold Memory.consCell at hp
    split at hp
    · exact .inl hp
    · next hb => exact (List.mem_cons.1 hp).elim (fun e => .inr ⟨e, hb⟩) .inl
  induction m with
  | nil => exact hcons [] h
  | cons c m ih =>
    obtain ⟨k, v⟩ := c
    simp only [Memory.write] at h
    split at h
    · exact hcons _ h
    · split at h
      · exact (hcons _ h).imp_left (List.mem_cons_of_mem _)
      · rcases List.mem_cons.1 h with rfl | h
        · exact .inl (by simp)
        · exact (ih h).imp_left (List.mem_cons_of_mem _)

/-- A WRITE KEEPS THE CANONICAL FORM. -/
theorem Memory.wf_write {m : Memory} (hm : Memory.wf m) {a : Nat} (ha : inMemory a) (b : Byte) :
    Memory.wf (Memory.write m a b) := by
  refine ⟨?_, fun p hp => (Memory.mem_write hp).elim (hm.2 p) fun ⟨e, hb⟩ => e ▸ ⟨ha, hb⟩⟩
  have hcons : ∀ l : Memory, l.Pairwise (fun p q => p.1 < q.1) → (∀ p ∈ l, a < p.1) →
      (Memory.consCell a b l).Pairwise (fun p q => p.1 < q.1) := by
    intro l hl hlt
    unfold Memory.consCell
    split
    · exact hl
    · exact List.pairwise_cons.2 ⟨hlt, hl⟩
  replace hm := hm.1
  induction m with
  | nil => exact hcons [] List.Pairwise.nil (by simp)
  | cons c m ih =>
    obtain ⟨k, v⟩ := c
    obtain ⟨hgt, htl⟩ := List.pairwise_cons.1 hm
    simp only [Memory.write]
    split
    · next hlt =>
      refine hcons _ hm fun p hp => ?_
      rcases List.mem_cons.1 hp with rfl | hp
      · exact hlt
      · exact Nat.lt_trans hlt (hgt p hp)
    · split
      · next heq => subst heq; exact hcons _ htl hgt
      · next h1 h2 =>
        refine List.pairwise_cons.2 ⟨fun p hp => ?_, ih htl⟩
        rcases Memory.mem_write hp with hp | ⟨rfl, -⟩
        · exact hgt p hp
        · show k < a; omega

theorem Memory.wf_writeWord {m : Memory} (hm : Memory.wf m) {a : Nat} (ha : inMemory (a + 1)) (w : Word) :
    Memory.wf (Memory.writeWord m a w) :=
  Memory.wf_write (Memory.wf_write hm (Nat.lt_of_succ_lt ha) _) ha _

/-- `placeWord` keeps the canonical form. -/
theorem placeWord_mem_wf {s : State} (hm : Memory.wf s.mem) (w : Word) : Memory.wf (placeWord s w).mem := by
  refine Memory.wf_writeWord hm ?_ w
  unfold fetchablePc
  split
  · assumption
  · simp [inMemory, Config.memSize]

end Sys2Proof.Machine
end

