-- ==== Sys2Proof/Laws/PerInstr.lean ====
section
/-! SUPPORT. The families of LAWS.json: statements about every instruction, one lemma a constructor. -/

namespace Sys2Proof.Laws.TwoBytes

/-- Every instruction is exactly two bytes, high byte first (spec/30_encoding.md R70, R86). -/
def Statement (i : Instr) : Prop := encodeBytes i = [highByte (encode i), lowByte (encode i)] ∧ (encodeBytes i).length = 2

theorem halt : Statement .halt := ⟨rfl, rfl⟩
theorem ret : Statement .ret := ⟨rfl, rfl⟩
theorem call (nnn : Addr12) : Statement (.call nnn) := ⟨rfl, rfl⟩
theorem add (x y : RegIndex) : Statement (.add x y) := ⟨rfl, rfl⟩
theorem unimplemented (raw : Word) : Statement (.unimplemented raw) := ⟨rfl, rfl⟩

end Sys2Proof.Laws.TwoBytes
end

