-- ==== Sys2Proof/Laws/State.lean ====
section
/-! SUPPORT. One lemma per field per update of `State`, so that no proof unfolds a record update. -/

namespace Sys2Proof.Machine

@[simp] theorem State.withMem_mem (s : State) (m : Memory) : (s.withMem m).mem = m := rfl
@[simp] theorem State.withMem_regs (s : State) (m : Memory) : (s.withMem m).regs = s.regs := rfl
@[simp] theorem State.withMem_pc (s : State) (m : Memory) : (s.withMem m).pc = s.pc := rfl
@[simp] theorem State.withMem_stack (s : State) (m : Memory) : (s.withMem m).stack = s.stack := rfl
@[simp] theorem State.withMem_sp (s : State) (m : Memory) : (s.withMem m).sp = s.sp := rfl
@[simp] theorem State.withMem_run (s : State) (m : Memory) : (s.withMem m).run = s.run := rfl
@[simp] theorem State.withMem_stackDepth (s : State) (m : Memory) : (s.withMem m).stackDepth = s.stackDepth := rfl

@[simp] theorem State.withRegs_mem (s : State) (v : Vector Byte 16) : (s.withRegs v).mem = s.mem := rfl
@[simp] theorem State.withRegs_regs (s : State) (v : Vector Byte 16) : (s.withRegs v).regs = v := rfl
@[simp] theorem State.withRegs_pc (s : State) (v : Vector Byte 16) : (s.withRegs v).pc = s.pc := rfl
@[simp] theorem State.withRegs_stack (s : State) (v : Vector Byte 16) : (s.withRegs v).stack = s.stack := rfl
@[simp] theorem State.withRegs_sp (s : State) (v : Vector Byte 16) : (s.withRegs v).sp = s.sp := rfl
@[simp] theorem State.withRegs_run (s : State) (v : Vector Byte 16) : (s.withRegs v).run = s.run := rfl
@[simp] theorem State.withRegs_stackDepth (s : State) (v : Vector Byte 16) : (s.withRegs v).stackDepth = s.stackDepth := rfl

@[simp] theorem State.withPc_mem (s : State) (p : Word) : (s.withPc p).mem = s.mem := rfl
@[simp] theorem State.withPc_regs (s : State) (p : Word) : (s.withPc p).regs = s.regs := rfl
@[simp] theorem State.withPc_pc (s : State) (p : Word) : (s.withPc p).pc = p := rfl
@[simp] theorem State.withPc_stack (s : State) (p : Word) : (s.withPc p).stack = s.stack := rfl
@[simp] theorem State.withPc_sp (s : State) (p : Word) : (s.withPc p).sp = s.sp := rfl
@[simp] theorem State.withPc_run (s : State) (p : Word) : (s.withPc p).run = s.run := rfl
@[simp] theorem State.withPc_stackDepth (s : State) (p : Word) : (s.withPc p).stackDepth = s.stackDepth := rfl

@[simp] theorem State.withStack_mem (s : State) (l : List Word) : (s.withStack l).mem = s.mem := rfl
@[simp] theorem State.withStack_regs (s : State) (l : List Word) : (s.withStack l).regs = s.regs := rfl
@[simp] theorem State.withStack_pc (s : State) (l : List Word) : (s.withStack l).pc = s.pc := rfl
@[simp] theorem State.withStack_stack (s : State) (l : List Word) : (s.withStack l).stack = l := rfl
@[simp] theorem State.withStack_sp (s : State) (l : List Word) : (s.withStack l).sp = s.sp := rfl
@[simp] theorem State.withStack_run (s : State) (l : List Word) : (s.withStack l).run = s.run := rfl
@[simp] theorem State.withStack_stackDepth (s : State) (l : List Word) : (s.withStack l).stackDepth = l.length := rfl

@[simp] theorem State.withSp_mem (s : State) (n : Nat) : (s.withSp n).mem = s.mem := rfl
@[simp] theorem State.withSp_regs (s : State) (n : Nat) : (s.withSp n).regs = s.regs := rfl
@[simp] theorem State.withSp_pc (s : State) (n : Nat) : (s.withSp n).pc = s.pc := rfl
@[simp] theorem State.withSp_stack (s : State) (n : Nat) : (s.withSp n).stack = s.stack := rfl
@[simp] theorem State.withSp_sp (s : State) (n : Nat) : (s.withSp n).sp = n := rfl
@[simp] theorem State.withSp_run (s : State) (n : Nat) : (s.withSp n).run = s.run := rfl
@[simp] theorem State.withSp_stackDepth (s : State) (n : Nat) : (s.withSp n).stackDepth = s.stackDepth := rfl

@[simp] theorem State.withRun_mem (s : State) (r : RunState) : (s.withRun r).mem = s.mem := rfl
@[simp] theorem State.withRun_regs (s : State) (r : RunState) : (s.withRun r).regs = s.regs := rfl
@[simp] theorem State.withRun_pc (s : State) (r : RunState) : (s.withRun r).pc = s.pc := rfl
@[simp] theorem State.withRun_stack (s : State) (r : RunState) : (s.withRun r).stack = s.stack := rfl
@[simp] theorem State.withRun_sp (s : State) (r : RunState) : (s.withRun r).sp = s.sp := rfl
@[simp] theorem State.withRun_run (s : State) (r : RunState) : (s.withRun r).run = r := rfl
@[simp] theorem State.withRun_stackDepth (s : State) (r : RunState) : (s.withRun r).stackDepth = s.stackDepth := rfl

@[simp] theorem State.withReg_mem (s : State) (i : RegIndex) (b : Byte) : (s.withReg i b).mem = s.mem := rfl
@[simp] theorem State.withReg_pc (s : State) (i : RegIndex) (b : Byte) : (s.withReg i b).pc = s.pc := rfl
@[simp] theorem State.withReg_stack (s : State) (i : RegIndex) (b : Byte) : (s.withReg i b).stack = s.stack := rfl
@[simp] theorem State.withReg_sp (s : State) (i : RegIndex) (b : Byte) : (s.withReg i b).sp = s.sp := rfl
@[simp] theorem State.withReg_run (s : State) (i : RegIndex) (b : Byte) : (s.withReg i b).run = s.run := rfl
@[simp] theorem State.withReg_stackDepth (s : State) (i : RegIndex) (b : Byte) : (s.withReg i b).stackDepth = s.stackDepth := rfl

@[simp] theorem State.withReg_regs (s : State) (i : RegIndex) (b : Byte) :
    (s.withReg i b).regs = s.regs.set i b := rfl

@[simp] theorem advance_mem (s : State) : (advance s).mem = s.mem := rfl
@[simp] theorem advance_regs (s : State) : (advance s).regs = s.regs := rfl
@[simp] theorem advance_pc (s : State) : (advance s).pc = s.pc + 2#16 := rfl
@[simp] theorem advance_stack (s : State) : (advance s).stack = s.stack := rfl
@[simp] theorem advance_sp (s : State) : (advance s).sp = s.sp := rfl
@[simp] theorem advance_run (s : State) : (advance s).run = s.run := rfl
@[simp] theorem advance_stackDepth (s : State) : (advance s).stackDepth = s.stackDepth := rfl

@[simp] theorem raiseFault_mem (r : FaultReason) (s : State) : (raiseFault r s).mem = s.mem := rfl
@[simp] theorem raiseFault_regs (r : FaultReason) (s : State) : (raiseFault r s).regs = s.regs := rfl
@[simp] theorem raiseFault_pc (r : FaultReason) (s : State) : (raiseFault r s).pc = s.pc := rfl
@[simp] theorem raiseFault_stack (r : FaultReason) (s : State) : (raiseFault r s).stack = s.stack := rfl
@[simp] theorem raiseFault_sp (r : FaultReason) (s : State) : (raiseFault r s).sp = s.sp := rfl
@[simp] theorem raiseFault_run (r : FaultReason) (s : State) : (raiseFault r s).run = .faulted r := rfl
@[simp] theorem raiseFault_stackDepth (r : FaultReason) (s : State) : (raiseFault r s).stackDepth = s.stackDepth := rfl

@[simp] theorem addWithFlag_mem (x y : RegIndex) (s : State) : (addWithFlag x y s).mem = s.mem := rfl
@[simp] theorem addWithFlag_pc (x y : RegIndex) (s : State) : (addWithFlag x y s).pc = s.pc := rfl
@[simp] theorem addWithFlag_stack (x y : RegIndex) (s : State) : (addWithFlag x y s).stack = s.stack := rfl
@[simp] theorem addWithFlag_sp (x y : RegIndex) (s : State) : (addWithFlag x y s).sp = s.sp := rfl
@[simp] theorem addWithFlag_run (x y : RegIndex) (s : State) : (addWithFlag x y s).run = s.run := rfl
@[simp] theorem addWithFlag_stackDepth (x y : RegIndex) (s : State) : (addWithFlag x y s).stackDepth = s.stackDepth := rfl

/-- A register reads as it did after every update that writes no register. -/
@[simp] theorem State.withPc_reg (s : State) (p : Word) (i : RegIndex) : (s.withPc p).reg i = s.reg i := rfl
@[simp] theorem State.withMem_reg (s : State) (m : Memory) (i : RegIndex) : (s.withMem m).reg i = s.reg i := rfl
@[simp] theorem State.withStack_reg (s : State) (l : List Word) (i : RegIndex) : (s.withStack l).reg i = s.reg i := rfl
@[simp] theorem State.withSp_reg (s : State) (n : Nat) (i : RegIndex) : (s.withSp n).reg i = s.reg i := rfl
@[simp] theorem State.withRun_reg (s : State) (r : RunState) (i : RegIndex) : (s.withRun r).reg i = s.reg i := rfl
@[simp] theorem advance_reg (s : State) (i : RegIndex) : (advance s).reg i = s.reg i := rfl
@[simp] theorem raiseFault_reg (r : FaultReason) (s : State) (i : RegIndex) : (raiseFault r s).reg i = s.reg i := rfl

/-- Reading a register after a register write: the value written, or the register's own. -/
theorem State.withReg_reg (s : State) (i j : RegIndex) (b : Byte) :
    (s.withReg i b).reg j = if j = i then b else s.reg j := by
  by_cases h : j = i
  · subst h; simp [State.reg, State.withReg]
  · have : (i : Nat) ≠ (j : Nat) := fun e => h (Fin.ext e.symm)
    simp [State.reg, State.withReg, h, this]

@[simp] theorem State.withReg_reg_same (s : State) (i : RegIndex) (b : Byte) : (s.withReg i b).reg i = b := by
  simp [State.withReg_reg]

theorem State.withReg_reg_other (s : State) {i j : RegIndex} (b : Byte) (h : j ≠ i) :
    (s.withReg i b).reg j = s.reg j := by
  simp [State.withReg_reg, h]

/-- Everything add-with-flag does to the registers: the flag's last write wins. -/
theorem addWithFlag_reg (x y i : RegIndex) (s : State) :
    (addWithFlag x y s).reg i =
      if i = Config.flagIndex then flagByte (aluAdd (s.reg x) (s.reg y)).2
      else if i = x then (aluAdd (s.reg x) (s.reg y)).1 else s.reg i := by
  simp only [addWithFlag, State.withReg_reg]

/-! The state after reset. -/

@[simp] theorem State.resetWith_mem (entry : Word) (depth : Nat) : (State.resetWith entry depth).mem = [] := rfl
@[simp] theorem State.resetWith_regs (entry : Word) (depth : Nat) : (State.resetWith entry depth).regs = Vector.replicate 16 Config.resetReg := rfl
@[simp] theorem State.resetWith_pc (entry : Word) (depth : Nat) : (State.resetWith entry depth).pc = entry := rfl
@[simp] theorem State.resetWith_stack (entry : Word) (depth : Nat) : (State.resetWith entry depth).stack = List.replicate depth Config.resetStackEntry := rfl
@[simp] theorem State.resetWith_sp (entry : Word) (depth : Nat) : (State.resetWith entry depth).sp = 0 := rfl
@[simp] theorem State.resetWith_run (entry : Word) (depth : Nat) : (State.resetWith entry depth).run = .running := rfl
@[simp] theorem State.resetWith_stackDepth (entry : Word) (depth : Nat) :
    (State.resetWith entry depth).stackDepth = depth := by
  simp [State.stackDepth]

end Sys2Proof.Machine
end

