-- ==== Sys2Proof/Laws/Step.lean ====
section
/-! SUPPORT. What each shared operation, and a step, can do: said once, for the proofs to cite. -/

namespace Sys2Proof.Machine

/-! ## Fetch -/

theorem fetch_eq (s : State) :
    fetch s = if inMemory (s.pc.toNat + 1) then
        .ok (wordOfBytes (Memory.byteAt s.mem s.pc.toNat) (Memory.byteAt s.mem (s.pc.toNat + 1)))
      else .raise (.indexOutOfRange s.pc) := by
  have hiff : (∀ k < 2, inMemory (s.pc.toNat + k)) ↔ inMemory (s.pc.toNat + 1) := by
    refine ⟨fun h => h 1 (by omega), fun h k hk => ?_⟩
    unfold inMemory at *
    omega
  simp only [fetch, memRead, hiff]
  split
  · simp only [OpResult.map]
    congr 1
    apply BitVec.eq_of_toNat_eq
    rw [wordOfBytes_toNat]
    have h1 := (Memory.byteAt s.mem s.pc.toNat).isLt
    have h2 := (Memory.byteAt s.mem (s.pc.toNat + 1)).isLt
    simp only [bytesFrom, bigEndian, List.foldl, BitVec.toNat_ofNat]
    omega
  · rfl

/-- Both bytes in memory: the fetch reads the word, high byte first (spec/30_encoding.md R71). -/
theorem fetch_ok {s : State} (h : inMemory (s.pc.toNat + 1)) :
    fetch s = .ok (wordOfBytes (Memory.byteAt s.mem s.pc.toNat) (Memory.byteAt s.mem (s.pc.toNat + 1))) := by
  rw [fetch_eq, if_pos h]

/-- A byte outside memory: the fetch raises IndexOutOfRange with its pc (spec/40_execution_cycle.md R101). -/
theorem fetch_raise {s : State} (h : ¬ inMemory (s.pc.toNat + 1)) : fetch s = .raise (.indexOutOfRange s.pc) := by
  rw [fetch_eq, if_neg h]

/-! ## The call stack -/

/-- Everything push can do. -/
theorem push_cases (a : Word) (s : State) :
    (s.sp = s.stackDepth ∧ push a s = .raise .stackOverflow) ∨
    (s.sp < s.stackDepth ∧ push a s = .ok ((s.withStack (s.stack.set s.sp a)).withSp (s.sp + 1))) ∨
    (s.stackDepth < s.sp ∧ push a s = .stop .stackPointerOutsideStack) := by
  rcases Nat.lt_trichotomy s.sp s.stackDepth with h | h | h
  · exact .inr (.inl ⟨h, by simp [push, h, Nat.ne_of_lt h]⟩)
  · exact .inl ⟨h, by simp [push, h]⟩
  · exact .inr (.inr ⟨h, by simp [push, Nat.ne_of_gt h, Nat.lt_asymm h]⟩)

/-- Everything pop can do. -/
theorem pop_cases (s : State) :
    (s.sp = 0 ∧ pop s = .raise .stackUnderflow) ∨
    (∃ a, 0 < s.sp ∧ s.stack[s.sp - 1]? = some a ∧ pop s = .ok (a, s.withSp (s.sp - 1))) ∨
    (s.stackDepth < s.sp ∧ pop s = .stop .stackPointerOutsideStack) := by
  by_cases h0 : s.sp = 0
  · exact .inl ⟨h0, by simp [pop, h0]⟩
  · cases h : s.stack[s.sp - 1]? with
    | some a => exact .inr (.inl ⟨a, by omega, rfl, by simp [pop, h0, h]⟩)
    | none =>
      refine .inr (.inr ⟨?_, by simp [pop, h0, h]⟩)
      rw [List.getElem?_eq_none_iff] at h
      unfold State.stackDepth
      omega

/-! ## One instruction -/

/-- Everything RET can do when it gives a next state. -/
theorem execRet_next {s t : State} (h : execRet s = .next t) :
    (s.sp = 0 ∧ t = raiseFault .stackUnderflow s) ∨
    (∃ a, 0 < s.sp ∧ s.stack[s.sp - 1]? = some a ∧ t = (s.withSp (s.sp - 1)).withPc a) := by
  unfold execRet at h
  rcases pop_cases s with ⟨h0, hp⟩ | ⟨a, h0, ha, hp⟩ | ⟨-, hp⟩ <;>
    simp only [hp, OpResult.map, conclude, Host.Outcome.next.injEq, reduceCtorEq] at h
  · exact .inl ⟨h0, h.symm⟩
  · exact .inr ⟨a, h0, ha, h.symm⟩

/-- Everything CALL can do when it gives a next state. -/
theorem execCall_next {nnn : Addr12} {s t : State} (h : execCall nnn s = .next t) :
    (s.sp = s.stackDepth ∧ t = raiseFault .stackOverflow s) ∨
    (s.sp < s.stackDepth ∧
      t = ((s.withStack (s.stack.set s.sp s.pc)).withSp (s.sp + 1)).withPc (targetOf nnn)) := by
  unfold execCall at h
  rcases push_cases s.pc s with ⟨h0, hp⟩ | ⟨h0, hp⟩ | ⟨-, hp⟩ <;>
    simp only [hp, OpResult.map, conclude, Host.Outcome.next.injEq, reduceCtorEq] at h
  · exact .inl ⟨h0, h.symm⟩
  · exact .inr ⟨h0, h.symm⟩

/-- Everything any instruction can do when it gives a next state. -/
theorem exec_next {i : Instr} {s t : State} (h : exec i s = .next t) :
    (i = .halt ∧ t = s.withRun .halted) ∨
    (i = .ret ∧ s.sp = 0 ∧ t = raiseFault .stackUnderflow s) ∨
    (i = .ret ∧ ∃ a, 0 < s.sp ∧ s.stack[s.sp - 1]? = some a ∧ t = (s.withSp (s.sp - 1)).withPc a) ∨
    (∃ nnn, i = .call nnn ∧ s.sp = s.stackDepth ∧ t = raiseFault .stackOverflow s) ∨
    (∃ nnn, i = .call nnn ∧ s.sp < s.stackDepth ∧
      t = ((s.withStack (s.stack.set s.sp s.pc)).withSp (s.sp + 1)).withPc (targetOf nnn)) ∨
    (∃ x y, i = .add x y ∧ t = addWithFlag x y s) ∨
    (∃ raw, i = .unimplemented raw ∧ t = raiseFault (.unimplementedOpcode raw) s) := by
  cases i with
  | halt => exact .inl ⟨rfl, by simpa [exec, execHalt] using h.symm⟩
  | ret =>
    rcases execRet_next h with h' | h'
    · exact .inr (.inl ⟨rfl, h'⟩)
    · exact .inr (.inr (.inl ⟨rfl, h'⟩))
  | call nnn =>
    rcases execCall_next h with h' | h'
    · exact .inr (.inr (.inr (.inl ⟨nnn, rfl, h'⟩)))
    · exact .inr (.inr (.inr (.inr (.inl ⟨nnn, rfl, h'⟩))))
  | add x y => exact .inr (.inr (.inr (.inr (.inr (.inl ⟨x, y, rfl, by simpa [exec, execAdd] using h.symm⟩)))))
  | unimplemented raw =>
    exact .inr (.inr (.inr (.inr (.inr (.inr ⟨raw, rfl, by simpa [exec, execUnimplemented] using h.symm⟩)))))

/-! ## One step -/

theorem step_running_ok {s : State} {w : Word} (hr : s.run = .running) (hf : fetch s = .ok w) :
    step s = exec (decodeWord w) (advance s) := by
  simp [step, hr, hf]

theorem step_running_raise {s : State} {r : FaultReason} (hr : s.run = .running) (hf : fetch s = .raise r) :
    step s = .next (raiseFault r s) := by
  simp [step, hr, hf, conclude]

theorem step_terminal {s : State} (hr : s.run ≠ .running) : step s = .next s := by
  unfold step
  split
  · contradiction
  · rfl
  · rfl

/-- EVERYTHING A STEP CAN DO when it gives a next state: nothing, a fetch fault, or a dispatched instruction. -/
theorem step_next {s t : State} (h : step s = .next t) :
    (s.run ≠ .running ∧ t = s) ∨
    (s.run = .running ∧ ¬ inMemory (s.pc.toNat + 1) ∧ t = raiseFault (.indexOutOfRange s.pc) s) ∨
    (s.run = .running ∧ inMemory (s.pc.toNat + 1) ∧ ∃ w, fetch s = .ok w ∧
      exec (decodeWord w) (advance s) = .next t) := by
  by_cases hr : s.run = .running
  · by_cases hm : inMemory (s.pc.toNat + 1)
    · have hf := fetch_ok hm
      rw [step_running_ok hr hf] at h
      exact .inr (.inr ⟨hr, hm, _, hf, h⟩)
    · rw [step_running_raise hr (fetch_raise hm)] at h
      exact .inr (.inl ⟨hr, hm, by simpa using h.symm⟩)
  · rw [step_terminal hr] at h
    exact .inl ⟨hr, by simpa using h.symm⟩

/-! ## The host's placed word -/

theorem fetchablePc_inMemory (pc : Word) : inMemory ((fetchablePc pc).toNat + 1) := by
  unfold fetchablePc
  split
  · assumption
  · simp [inMemory, Config.memSize]

theorem fetch_placeWord {s : State} (hm : Memory.wf s.mem) (w : Word) : fetch (placeWord s w) = .ok w := by
  have hin := fetchablePc_inMemory s.pc
  have h1 := Memory.wf_write hm (Nat.lt_of_succ_lt hin) (highByte w)
  rw [fetch_ok (s := placeWord s w) hin]
  show OpResult.ok (wordOfBytes
    (Memory.byteAt (Memory.writeWord s.mem (fetchablePc s.pc).toNat w) (fetchablePc s.pc).toNat)
    (Memory.byteAt (Memory.writeWord s.mem (fetchablePc s.pc).toNat w) ((fetchablePc s.pc).toNat + 1))) = _
  simp [Memory.writeWord, Memory.byteAt_write h1, Memory.byteAt_write hm]

/-- From a state with canonical memory, the step after `withFetchWord` runs exactly the placed word. -/
theorem step_withFetchWord {s : State} (hm : Memory.wf s.mem) (nbits w : Nat) :
    step (s.withFetchWord nbits w) =
      exec (decodeWord (tableWord nbits w)) (advance (placeWord s (tableWord nbits w))) :=
  step_running_ok rfl (fetch_placeWord hm _)

end Sys2Proof.Machine
end

