-- ==== Sys2Proof/Laws/Safety.lean ====
section
/-! SUPPORT. The next word, moves and runs: what the proofs cite instead of unfolding them. -/

namespace Sys2Proof.Machine

/-! ## The next word -/

theorem fetch_of_nextWord {s : State} {w : Word} (h : NextWord s w) : fetch s = .ok w := by
  obtain ⟨-, hin, hhi, hlo⟩ := h
  rw [fetch_ok hin, hhi, hlo, wordOfBytes_highByte_lowByte]

/-- The bytes of a word put together are its high and its low byte. -/
theorem highByte_wordOfBytes (hi lo : Byte) : highByte (wordOfBytes hi lo) = hi := by
  have h := wordOfBytes_toNat hi lo
  have h1 := hi.isLt
  have h2 := lo.isLt
  apply BitVec.eq_of_toNat_eq
  simp only [highByte, BitVec.extractLsb'_toNat, Nat.shiftRight_eq_div_pow, h]
  omega

theorem lowByte_wordOfBytes (hi lo : Byte) : lowByte (wordOfBytes hi lo) = lo := by
  have h := wordOfBytes_toNat hi lo
  have h2 := lo.isLt
  apply BitVec.eq_of_toNat_eq
  simp only [lowByte, BitVec.extractLsb'_toNat, Nat.shiftRight_eq_div_pow, h]
  omega

/-- In a Running state the next word is the word the fetch gives. -/
theorem nextWord_iff_fetch {s : State} (hr : s.run = .running) (w : Word) : NextWord s w ↔ fetch s = .ok w := by
  refine ⟨fetch_of_nextWord, fun h => ?_⟩
  by_cases hin : inMemory (s.pc.toNat + 1)
  · rw [fetch_ok hin, OpResult.ok.injEq] at h
    subst h
    exact ⟨hr, hin, (highByte_wordOfBytes _ _).symm, (lowByte_wordOfBytes _ _).symm⟩
  · simp [fetch_raise hin] at h

theorem nextWord_unique {s : State} {w w' : Word} (h : NextWord s w) (h' : NextWord s w') : w = w' := by
  have e := fetch_of_nextWord h
  rw [fetch_of_nextWord h', OpResult.ok.injEq] at e
  exact e.symm

/-- The step on a next word is its operation after the advance. -/
theorem step_of_nextWord {s : State} {w : Word} (h : NextWord s w) : step s = exec (decodeWord w) (advance s) :=
  step_running_ok h.1 (fetch_of_nextWord h)

/-! ## Moves -/

theorem Transition.deterministic {s t u : State} (h : Transition s t) (h' : Transition s u) : t = u :=
  Host.Outcome.next.inj (h.2.symm.trans h'.2)

/-- Everything a move can be: a fetch fault, or a dispatched word. -/
theorem Transition.cases {s t : State} (h : Transition s t) :
    (¬ inMemory (s.pc.toNat + 1) ∧ t = raiseFault (.indexOutOfRange s.pc) s) ∨
    (∃ w, NextWord s w ∧ exec (decodeWord w) (advance s) = .next t) := by
  obtain ⟨hr, h⟩ := h
  rcases step_next h with ⟨hn, -⟩ | ⟨-, hin, ht⟩ | ⟨-, -, w, hf, he⟩
  · exact absurd hr hn
  · exact .inl ⟨hin, ht⟩
  · exact .inr ⟨w, (nextWord_iff_fetch hr w).2 hf, he⟩

/-! ## Runs -/

theorem Moves.one {s t : State} (h : Transition s t) : Moves 1 s t := .move trivial h (.done trivial)

theorem MovesWithin.trans {p : State → Prop} {m n : Nat} {s t u : State} (h : MovesWithin p m s t)
    (h' : MovesWithin p n t u) : MovesWithin p (m + n) s u := by
  induction h with
  | done _ => simpa using h'
  | @move k _ _ _ hp ht _ ih =>
    rw [show k + 1 + n = k + n + 1 by omega]
    exact .move hp ht (ih h')

/-- What every move keeps, a run keeps. -/
theorem MovesWithin.invariant {p inv : State → Prop} (hstep : ∀ s t, inv s → Transition s t → inv t) {n : Nat}
    {s t : State} (h : MovesWithin p n s t) (hs : inv s) : inv t := by
  induction h with
  | done _ => exact hs
  | move _ ht _ ih => exact ih (hstep _ _ hs ht)

end Sys2Proof.Machine
end

