-- ==== Sys2Proof/Tests/Slice0.lean ====
section
/-! SUPPORT. The model's own tests. Expected results are those of spec/95_test_vectors.md, whose section each test
names. The second part shows, for each statement that has hypotheses, a state and operands that meet them. -/

namespace Sys2Proof.Tests

open Sys2Proof Sys2Proof.Machine

/-! ## Small states -/

/-- The state after reset with the bytes, pc, live stack entries and first registers given. -/
def small (cells : Memory) (pc : Word) (live : List Word) (v0 v1 : Byte) : State :=
  (((((State.resetWith pc 16).withMem cells).withStack (live ++ List.replicate (16 - live.length) 0#16)).withSp
    live.length).withReg 0 v0).withReg 1 v1

/-- The state a step answers. -/
def next (s : State) : State := match step s with
  | .next t => t
  | .fault _ => s
  | .refused _ => s

/-- W5: `0x000: 80 14`, V = [250, 10]. -/
def atAdd : State := small [(0, 0x80#8), (1, 0x14#8)] 0x000#16 [] 250#8 10#8
/-- 2.4, row 1: `0x000: 21 00`. -/
def atCall : State := small [(0, 0x21#8)] 0x000#16 [] 0#8 0#8
/-- 2.4, row 5: `0x000: 20 05`. -/
def atOddCall : State := small [(0, 0x20#8), (1, 0x05#8)] 0x000#16 [] 0#8 0#8
/-- 2.4, row 3: `0x300: 20 00` with one free slot. -/
def atLastCall : State := small [(0x300, 0x20#8)] 0x300#16 (List.replicate 15 2#16) 0#8 0#8
/-- 2.4, row 4: `0x020: 20 00` on a full stack. -/
def atFullCall : State := small [(0x20, 0x20#8)] 0x020#16 (List.replicate 16 2#16) 0#8 0#8
/-- 2.4, row 7: `0x104: 00 EE` with STACK[0] = 0x0002. -/
def atRet : State := small [(0x105, 0xEE#8)] 0x104#16 [0x0002#16] 5#8 10#8
/-- 2.4, row 10: `0x040: 00 EE` with STACK[0] = 0x1000. -/
def atRetOut : State := small [(0x41, 0xEE#8)] 0x040#16 [0x1000#16] 0#8 0#8
/-- W6: `0x000: 00 EE` on an empty stack. -/
def atEmptyRet : State := small [(1, 0xEE#8)] 0x000#16 [] 5#8 10#8
/-- 2.5, row 2: unloaded memory at 0xFFE. -/
def atHalt : State := small [] 0xFFE#16 [] 0#8 0#8
/-- 2.7, row 1: `0x000: 00 E0`. -/
def atUnimplemented : State := small [(1, 0xE0#8)] 0x000#16 [] 0#8 0#8
/-- 2.6, row 2: a fetch whose second byte is outside memory. -/
def atEdge : State := small [] 0xFFF#16 [] 0#8 0#8
/-- A terminal state. -/
def atEnd : State := atHalt.withRun .halted
/-- A state the hardware does not have: SP above STACK_DEPTH. -/
def impossible : State := atRet.withSp 17

/-! ## Well-formedness and decoding -/

theorem test_wellFormed_refuses_a_halt_word : (Instr.unimplemented 0x0000#16).wellFormed = false := by decide
theorem test_wellFormed_refuses_a_ret_word : (Instr.unimplemented 0x00EE#16).wellFormed = false := by decide
theorem test_wellFormed_refuses_a_call_word : (Instr.unimplemented 0x2ABC#16).wellFormed = false := by decide
theorem test_wellFormed_refuses_an_add_word : (Instr.unimplemented 0x8FF4#16).wellFormed = false := by decide
theorem test_wellFormed_accepts_the_rest : (Instr.unimplemented 0x8015#16).wellFormed = true := by decide

/-- 2.1. -/
theorem test_fields : fieldsOf 0xABCD#16 = ⟨0xA#4, 0xB#4, 0xC#4, 0xD#4, 0xBCD#12⟩ := by decide
theorem test_decode_halt : decodeWord 0b0000000000000000#16 = .halt := by decide
theorem test_decode_ret : decodeWord 0b0000000011101110#16 = .ret := by decide
theorem test_decode_call : decodeWord 0b0010101010111100#16 = .call 0xABC#12 := by decide
/-- x is bits [11:8] and y bits [7:4] (R83). -/
theorem test_decode_add : decodeWord 0b1000111100010100#16 = .add 15 1 := by decide
theorem test_decode_unimplemented : decodeWord 0b0001000011101110#16 = .unimplemented 0x10EE#16 := by decide
theorem test_decode_truncated : decodeBytes [0x21#8] = .error .truncated := rfl
theorem test_table_word : decodeTableWord 16 0x8014 = some (.add 0 1) := by decide
theorem test_short_table_word : decodeTableWord 8 0x80EE = some .ret := by decide

/-! ## One step -/

/-- W5: V0 = 4, VF = 1, pc = 0x002. -/
theorem test_add : (next atAdd).reg 0 = 4#8 ∧ (next atAdd).vf = 1#8 ∧ (next atAdd).pc = 0x002#16 := by decide
/-- 2.3: VF = 200, V1 = 100, `8F14`: VF = 1. -/
theorem test_add_to_flag : (addWithFlag 15 1 ((atAdd.withReg 15 200#8).withReg 1 100#8)).vf = 1#8 := by decide
theorem test_call : (next atCall).pc = 0x100#16 ∧ (next atCall).sp = 1 ∧ (next atCall).stack[0]? = some 0x0002#16 := by
  decide
theorem test_call_full : (next atFullCall).run = .faulted .stackOverflow ∧ (next atFullCall).pc = 0x022#16 := by decide
theorem test_ret : (next atRet).pc = 0x002#16 ∧ (next atRet).sp = 0 ∧ (next atRet).stack[0]? = some 0x0002#16 := by
  decide
theorem test_ret_empty : (next atEmptyRet).run = .faulted .stackUnderflow ∧ (next atEmptyRet).pc = 0x002#16 := by
  decide
theorem test_halt : (next atHalt).run = .halted ∧ (next atHalt).pc = 0x1000#16 := by decide
theorem test_unimplemented : (readback (next atUnimplemented)).status = 0b10010#16 ∧
    (readback (next atUnimplemented)).faultInfo = 0x00E0#16 ∧ (next atUnimplemented).pc = 0x002#16 := by decide
/-- 2.6: FAULT_CODE 1, FAULT_INFO 0x0FFF, pc unmoved. -/
theorem test_fetch_fault : (readback (next atEdge)).status = 0b110#16 ∧
    (readback (next atEdge)).faultInfo = 0x0FFF#16 ∧ (next atEdge).pc = 0x0FFF#16 := by decide
/-- 2.6: no wrap to 0. -/
theorem test_fetch_does_not_wrap : (next (small [] 0xFFFF#16 [] 0#8 0#8)).run = .faulted (.indexOutOfRange 0xFFFF#16) := by
  decide
/-- 2.8: with nothing loaded the first step halts. -/
theorem test_reset_halts : (next State.reset).run = .halted ∧ (next State.reset).pc = 0x002#16 := by decide
theorem test_withFetchWord : (next (State.reset.withFetchWord 16 0x2ABC)).pc = 0xABC#16 := by decide
/-- The host's placed word runs from a terminal state and from a pc outside memory too. -/
theorem test_withFetchWord_restarts : (next ((atEdge.withRun .halted).withFetchWord 16 0x2ABC)).pc = 0xABC#16 := by
  decide

/-! ## The host's notation -/

/-- P1's first line and its routine, with a label. -/
theorem test_assemble : assemble [.org 0x000, .call (.label "sub"), .halt, .org 0x100, .label "sub", .add 0 1, .ret] =
    some [(0x000, 0x21#8), (0x001, 0x00#8), (0x002, 0x00#8), (0x003, 0x00#8), (0x100, 0x80#8), (0x101, 0x14#8),
      (0x102, 0x00#8), (0x103, 0xEE#8)] := by decide
theorem test_call_out_of_range_is_refused : assemble [.call (.addr 0x1000)] = none := by decide
/-- An offset that does not fit `ld_addr` is refused and does not wrap (log entry 28). -/
theorem test_load_offset_does_not_wrap : loadRequests [(0xFFF, 0x80#8), (0x10000, 0x14#8)] = none ∧
    loadRequests [(0xFFF, 0x80#8)] = some [.load 0xFFF#16 0x80#8] := by decide
theorem test_disassembly_text : disassemblyText 0x00E0#16 = ".word 0x00E0".toList := by decide
theorem test_disassembly_add : disassemblyText 0x8F14#16 = "ADD VF, V1".toList := by decide
theorem test_parse_register : parseRegister "vA".toList = some 10 := by decide
theorem test_parse_number : parseNumber "0x10f".toList = some 271 ∧ parseNumber "271".toList = some 271 := by decide

/-! ## Hypotheses are met -/

theorem witness_DecodeOfEncodeIsTheInstruction : (Instr.unimplemented 0x00E0#16).wellFormed = true := by decide
theorem witness_EncodeOfDecodeIsTheWord_short : [0x21#8].length < 2 := by decide
theorem witness_StepRunsTheDecodedInstruction : atAdd.run = .running ∧ atAdd.pc.toNat + 1 < 4096 ∧
    decodeBytes [Memory.byteAt atAdd.mem atAdd.pc.toNat, Memory.byteAt atAdd.mem (atAdd.pc.toNat + 1)]
      = .ok (.add 0 1, []) := ⟨rfl, by decide, rfl⟩
theorem witness_FetchReadsTheWordHighByteFirst : atHalt.pc.toNat + 1 < 4096 := by decide
theorem witness_MemReadIsBoundedAndBigEndian_in : 0 < 2 ∧ (0xFFE#16).toNat + 2 ≤ 4096 := by decide
theorem witness_MemReadIsBoundedAndBigEndian_out : 0 < 2 ∧ 4096 < (0xFFF#16).toNat + 2 := by decide
theorem witness_FetchOutsideMemoryFaultsInPlace : atEdge.run = .running ∧ 4096 ≤ atEdge.pc.toNat + 1 := by decide

theorem step_next_atEdge : step atEdge = .next (next atEdge) := rfl
theorem step_next_atHalt : step atHalt = .next (next atHalt) := rfl
theorem step_next_atAdd : step atAdd = .next (next atAdd) := rfl
theorem step_next_atCall : step atCall = .next (next atCall) := rfl
theorem step_next_atOddCall : step atOddCall = .next (next atOddCall) := rfl
theorem step_next_atLastCall : step atLastCall = .next (next atLastCall) := rfl
theorem step_next_atFullCall : step atFullCall = .next (next atFullCall) := rfl
theorem step_next_atRet : step atRet = .next (next atRet) := rfl
theorem step_next_atRetOut : step atRetOut = .next (next atRetOut) := rfl
theorem step_next_atEmptyRet : step atEmptyRet = .next (next atEmptyRet) := rfl
theorem step_next_atUnimplemented : step atUnimplemented = .next (next atUnimplemented) := rfl

/-- Rows of R109's table, each from its own Running state whose step answers next. -/
theorem witness_NextPcFollowsTheBranchTable_fetch : atEdge.run = .running ∧ 4096 ≤ atEdge.pc.toNat + 1 := by decide
theorem witness_NextPcFollowsTheBranchTable_halt : NextWord atHalt 0x0000#16 := by decide
theorem witness_NextPcFollowsTheBranchTable_ret : NextWord atRet 0x00EE#16 ∧ 1 ≤ atRet.sp := by decide
theorem witness_NextPcFollowsTheBranchTable_underflow : NextWord atEmptyRet 0x00EE#16 ∧ atEmptyRet.sp = 0 := by decide
theorem witness_NextPcFollowsTheBranchTable_call :
    NextWord atLastCall (encode (.call 0#12)) ∧ atLastCall.sp < atLastCall.stackDepth := by decide
theorem witness_NextPcFollowsTheBranchTable_overflow :
    NextWord atFullCall (encode (.call 0#12)) ∧ atFullCall.sp = atFullCall.stackDepth := by decide
theorem witness_NextPcFollowsTheBranchTable_add : NextWord atAdd (encode (.add 0 1)) := by decide
theorem witness_NextPcFollowsTheBranchTable_unimplemented :
    matchesNoRow 0x00E0#16 = true ∧ NextWord atUnimplemented 0x00E0#16 := by decide

theorem witness_RunStateAfterAStep : atRet.run = .running ∧ step atRet = .next (next atRet) := ⟨rfl, rfl⟩
theorem witness_RunStateAfterAStep_halted : atEnd.run = .halted := rfl
theorem witness_RunStateAfterAStep_faulted : (next atEdge).run = .faulted (.indexOutOfRange 0xFFF#16) := by decide
theorem witness_TerminalStatesIgnoreStepRequests : atEnd.run ≠ .running := by decide
theorem witness_WellFormedStepAnswersNext : atFullCall.WF := by decide
theorem witness_EveryStepKeepsStatesWellFormed : atLastCall.WF ∧ step atLastCall = .next (next atLastCall) :=
  ⟨by decide, rfl⟩
theorem witness_ResetStatesAreWellFormed : 1 ≤ 1 := by decide
/-- A prepared state: the load of `0x000: 21 00` over reset. -/
def prepared : State := ((State.resetWith 0x000#16 16).withMem [(0, 0x21#8)]).withRegs (Vector.replicate 16 7#8)
theorem prepared_prepared : Prepared prepared :=
  ⟨0x000#16, 16, [(0, 0x21#8)], Vector.replicate 16 7#8, by decide, by decide, rfl⟩
theorem witness_StackPointerStaysInTheStack : Reachable (next prepared) :=
  ⟨prepared, prepared_prepared, 1, .move trivial ⟨rfl, rfl⟩ (.done trivial)⟩
theorem witness_ResetValues : 15 < 16 := by decide
theorem live_atRetOut : liveEntries atRetOut = [0x1000#16] := by decide
theorem live_atOddCall : liveEntries atOddCall = [] := by decide
theorem witness_PcStaysInRange : (∀ a ∈ liveEntries atRetOut, a.toNat ≤ 4096) ∧ Transition atRetOut (next atRetOut) :=
  ⟨by simp [live_atRetOut], rfl, rfl⟩
theorem witness_PcStaysInRange_running : (next atRetOut).run = .running := rfl
theorem witness_PcParityIsTheProgramsDuty : atOddCall.pc.toNat % 2 = 0 ∧ (∀ a ∈ liveEntries atOddCall, a.toNat % 2 = 0) ∧
    Transition atOddCall (next atOddCall) ∧ (next atOddCall).run = .running := ⟨by decide, by simp [live_atOddCall], ⟨rfl, rfl⟩, rfl⟩
theorem witness_EveryRunEnds : atOddCall.WF ∧ atOddCall.run = .running ∧ atOddCall.sp = 0 := by decide
theorem witness_UnloadedMemoryHalts : atHalt.run = .running ∧ atHalt.pc.toNat + 1 < 4096 ∧
    ∀ p ∈ atHalt.mem, p.1 ≠ atHalt.pc.toNat ∧ p.1 ≠ atHalt.pc.toNat + 1 := by decide

/-- A safe run: reset memory halts at once, and a halted state has no move. -/
theorem witness_SafeRunsHalt : State.reset.WF ∧ State.reset.run = .running ∧ State.reset.sp = 0 ∧ SafeRun State.reset := by
  refine ⟨by decide, rfl, rfl, ?_⟩
  rintro s ⟨n, h⟩ r
  cases h with
  | done => exact fun e => RunState.noConfusion (e : RunState.running = .faulted r)
  | move _ h h' =>
    have ht : next State.reset = _ := Host.Outcome.next.inj ((rfl : step State.reset = .next (next State.reset)).symm.trans h.2)
    subst ht
    cases h' with
    | done => exact fun e => RunState.noConfusion (test_reset_halts.1.symm.trans e)
    | move _ h'' _ => exact RunState.noConfusion (test_reset_halts.1.symm.trans h''.1)

theorem witness_PushStoresOrOverflows_full : atFullCall.sp = atFullCall.stackDepth := by decide
theorem witness_PushStoresOrOverflows_free : atLastCall.sp < atLastCall.stackDepth := by decide
theorem witness_PopReadsOrUnderflows_empty : atEmptyRet.sp = 0 := by decide
theorem witness_PopReadsOrUnderflows_full : 0 < atFullCall.sp ∧ atFullCall.sp ≤ atFullCall.stackDepth := by decide
theorem witness_PopAfterPushReturnsTheValue : push 0x0302#16 atLastCall =
    .ok ((atLastCall.withStack (atLastCall.stack.set 15 0x0302#16)).withSp 16) := by decide
theorem witness_PopAfterPushReturnsTheValue_same_sp :
    atLastCall.sp = (atLastCall.withPc 0#16).sp ∧ atLastCall.stackDepth = (atLastCall.withPc 0#16).stackDepth := by decide
theorem witness_RetCompletesOrUnderflows : 0 < atRet.sp ∧ atRet.stack[atRet.sp - 1]? = some 0x0002#16 := by decide
theorem witness_RetCompletesOrUnderflows_empty : atEmptyRet.sp = 0 := by decide
theorem witness_RetCompletesOrUnderflows_out : NextWord atRetOut 0x00EE#16 ∧ 0 < atRetOut.sp ∧
    atRetOut.stack[atRetOut.sp - 1]? = some 0x1000#16 ∧ 4095 ≤ (0x1000#16).toNat := by decide
theorem witness_CallCompletesOrOverflows : atLastCall.sp < atLastCall.stackDepth := by decide
theorem witness_CallCompletesOrOverflows_full : atFullCall.sp = atFullCall.stackDepth := by decide
theorem witness_StackFaultsComeAfterTheAdvance_overflow :
    NextWord atFullCall (encode (.call 0#12)) ∧ atFullCall.sp = atFullCall.stackDepth := by decide
theorem witness_StackFaultsComeAfterTheAdvance_underflow : NextWord atEmptyRet 0x00EE#16 ∧ atEmptyRet.sp = 0 := by decide

/-- W8: a CALL at 0x040 to 0x300, which holds `00 EE`. -/
def atRoundTrip : State := small [(0x40, 0x23#8), (0x301, 0xEE#8)] 0x040#16 [] 0#8 0#8
theorem witness_MatchingRetReturnsPastTheCall :
    NextWord atRoundTrip (encode (.call 0x300#12)) ∧ atRoundTrip.sp < atRoundTrip.stackDepth ∧
    Transition atRoundTrip (next atRoundTrip) ∧
    MovesWithin (fun r => (next atRoundTrip).sp ≤ r.sp) 0 (next atRoundTrip) (next atRoundTrip) ∧
    NextWord (next atRoundTrip) 0x00EE#16 ∧ Transition (next atRoundTrip) (next (next atRoundTrip)) :=
  ⟨by decide, by decide, ⟨rfl, rfl⟩, .done (Nat.le_refl _), by decide, rfl, rfl⟩

theorem witness_OnlyCallWritesTheStack : step atCall = .next (next atCall) ∧
    (next atCall).stack[0]? ≠ atCall.stack[0]? ∧ (next atCall).sp ≠ atCall.sp := ⟨rfl, by decide, by decide⟩
/-- They differ in STACK[5], which is stale. -/
theorem witness_StaleEntriesAreNotObservable : SameButStale atRet (atRet.withStack (atRet.stack.set 5 7#16)) ∧
    atRet ≠ atRet.withStack (atRet.stack.set 5 7#16) ∧ step atRet = .next (next atRet) := ⟨by decide, by decide, rfl⟩
theorem witness_ImpossibleStackPointerStopsTheModel : impossible.stackDepth < impossible.sp := by decide
theorem witness_AddWritesSumAndCarry : (0 : RegIndex) ≠ 15 := by decide
theorem witness_AddWhereRegistersCoincide : ∃ t, exec (.add 15 15) atAdd = .next t := ⟨_, rfl⟩
theorem witness_AddWhereRegistersCoincide_source : (0 : RegIndex) ≠ 15 ∧ ∃ t, exec (.add 0 15) atAdd = .next t :=
  ⟨by decide, _, rfl⟩
theorem witness_AddObeysTheArithmeticLaws : (0 : RegIndex) ≠ 15 ∧ (1 : RegIndex) ≠ 15 ∧ (0 : RegIndex) ≠ 1 ∧
    exec (.add 0 1) atAdd = .next (addWithFlag 0 1 atAdd) := ⟨by decide, by decide, by decide, rfl⟩
theorem witness_AddObeysTheArithmeticLaws_zero : (small [] 0#16 [] 0#8 255#8).reg 0 = 0#8 := by decide
theorem witness_AddObeysTheArithmeticLaws_zero_source : (small [] 0#16 [] 255#8 0#8).reg 1 = 0#8 := by decide
theorem witness_AddObeysTheArithmeticLaws_256 :
    ((small [] 0#16 [] 255#8 1#8).reg 0).toNat + ((small [] 0#16 [] 255#8 1#8).reg 1).toNat = 256 := by decide
theorem witness_FlagIsTheCarryOfTheLastAdd_add : step atAdd = .next (next atAdd) ∧
    NextWord atAdd (encode (.add 0 1)) := ⟨rfl, by decide⟩
/-- Both carries: 250 + 10 and 0 + 10 (x = 2 holds 0). -/
theorem witness_FlagIsTheCarryOfTheLastAdd_carries : (atAdd.reg 0).toNat + (atAdd.reg 1).toNat > 255 ∧
    ¬ (atAdd.reg 2).toNat + (atAdd.reg 1).toNat > 255 := by decide
theorem witness_FlagIsTheCarryOfTheLastAdd_other : step atEdge = .next (next atEdge) ∧
    ∀ x y, ¬ NextWord atEdge (encode (.add x y)) := ⟨rfl, fun _ _ h => absurd h.2.1 (by decide)⟩
theorem witness_RegisterAccessByInstruction : exec .ret atRet = .next ((atRet.withSp 0).withPc 0x0002#16) ∧
    ∀ x y, Instr.ret ≠ .add x y := ⟨rfl, fun _ _ h => by cases h⟩
theorem witness_RegisterAccessByInstruction_add :
    (atAdd.withReg 2 9#8).reg 0 = atAdd.reg 0 ∧ (atAdd.withReg 2 9#8).reg 1 = atAdd.reg 1 ∧
    exec (.add 0 1) atAdd = .next (addWithFlag 0 1 atAdd) ∧
    exec (.add 0 1) (atAdd.withReg 2 9#8) = .next (addWithFlag 0 1 (atAdd.withReg 2 9#8)) :=
  ⟨by decide, by decide, rfl, rfl⟩
theorem witness_ControlFlowIgnoresRegisters : step atCall = .next (next atCall) := rfl
theorem witness_UnimplementedFaultsWithTheRawWord :
    matchesNoRow 0x00E0#16 = true ∧ NextWord atUnimplemented 0x00E0#16 := by decide
theorem witness_FaultsArePrecise_dispatch : Transition atEmptyRet (next atEmptyRet) ∧
    (next atEmptyRet).run = .faulted .stackUnderflow ∧ atEmptyRet.pc.toNat + 1 < 4096 := ⟨⟨rfl, rfl⟩, by decide, by decide⟩
theorem witness_FaultsArePrecise_fetch : Transition atEdge (next atEdge) ∧
    (next atEdge).run = .faulted (.indexOutOfRange 0xFFF#16) ∧ 4096 ≤ atEdge.pc.toNat + 1 :=
  ⟨⟨rfl, rfl⟩, by decide, by decide⟩
theorem witness_StackPointerFitsItsPort : atFullCall.WF := by decide
theorem witness_StatusAndFaultInfoDetermineTheRunState :
    statusWord .running = statusWord .running ∧ faultInfo .running = faultInfo .running := ⟨rfl, rfl⟩
theorem witness_NoStepWritesMemory : step atCall = .next (next atCall) := rfl
theorem witness_HostLoadStoresOneByte : Memory.wf Block.reset.core.mem ∧ Block.reset.phase = .load ∧
    (0xFFF#16).toNat < 4096 := by decide
theorem witness_HostLoadStoresOneByte_out : Memory.wf Block.reset.core.mem ∧ Block.reset.phase = .load ∧
    4096 ≤ (0x1000#16).toNat := by decide

/-- A block after its first step. -/
def stepped : Block := { core := next atCall, phase := .run }
theorem witness_HostLoadStoresOneByte_late : Memory.wf stepped.core.mem ∧ stepped.phase = .run := by decide
theorem witness_HostSeedWritesOneRegister : Block.reset.phase = .load := rfl
theorem witness_HostSeedWritesOneRegister_late : stepped.phase = .run := rfl
theorem witness_StepRequestPerformsOneStep : Transition atCall (next atCall) := ⟨rfl, rfl⟩
theorem witness_StepRequestPerformsOneStep_ended : ({ core := atEnd, phase := .run } : Block).core.run ≠ .running := by
  decide
theorem witness_OnlyResetLeavesATerminalState : ({ core := atEnd, phase := .run } : Block).core.run ≠ .running ∧
    (∀ e ∈ [HostEvent.step], ∀ entry, e ≠ .rst entry) ∧
    Block.applyAll { core := atEnd, phase := .run } [.step] = .next { core := atEnd, phase := .run } :=
  ⟨by decide, by simp, rfl⟩
theorem witness_MemoryIsTheLoadedImageThroughoutARun : stepped.phase = .run ∧
    (∀ e ∈ [HostEvent.step], ∀ entry, e ≠ .rst entry) ∧
    stepped.applyAll [.step] = .next { core := next stepped.core, phase := .run } := ⟨rfl, by simp, rfl⟩
theorem witness_LoadingPreparesARun : 1 ≤ Block.reset.core.stackDepth ∧
    (∀ e ∈ [HostEvent.load 0xFFF#16 0x80#8, .seed 15 0x55#8], e ≠ .step ∧ ∀ entry', e ≠ .rst entry') ∧
    Block.reset.applyAll [.rst 0x200#16, .load 0xFFF#16 0x80#8, .seed 15 0x55#8] =
      .next { core := ((State.resetWith 0x200#16 16).withMem [(0xFFF, 0x80#8)]).withReg 15 0x55#8, phase := .load } :=
  ⟨by decide, by simp, rfl⟩

end Sys2Proof.Tests
end

namespace Sys2Proof.Machine

/-! ## The equations of the shared operations -/

/-- `push` overflows exactly on a full stack (spec/41_control_transfer.md R120). -/
theorem push_eq_stackOverflow_iff (a : Word) (s : State) :
    push a s = .raise .stackOverflow ↔ s.sp = s.stackDepth := by
  rcases push_cases a s with ⟨h, hp⟩ | ⟨h, hp⟩ | ⟨h, hp⟩
  · simp [hp, h]
  · simp [hp, Nat.ne_of_lt h]
  · simp [hp, Nat.ne_of_gt h]

/-- `pop` underflows exactly on an empty stack (R121). -/
theorem pop_eq_stackUnderflow_iff (s : State) : pop s = .raise .stackUnderflow ↔ s.sp = 0 := by
  rcases pop_cases s with ⟨h, hp⟩ | ⟨a, h, -, hp⟩ | ⟨h, hp⟩
  · simp [hp, h]
  · simp [hp, Nat.ne_of_gt h]
  · simp [hp, Nat.ne_of_gt (Nat.zero_lt_of_lt h)]

/-- While SP is within the stack there are exactly SP live entries (R28). -/
theorem length_liveEntries {s : State} (h : s.sp ≤ s.stackDepth) : (liveEntries s).length = s.sp :=
  List.length_take_of_le h

/-! ## The equations of the instructions, one per way an instruction completes -/

theorem exec_halt (s : State) : exec .halt s = .next (s.withRun .halted) := rfl

theorem exec_add (x y : RegIndex) (s : State) : exec (.add x y) s = .next (addWithFlag x y s) := rfl

theorem exec_unimplemented (raw : Word) (s : State) :
    exec (.unimplemented raw) s = .next (raiseFault (.unimplementedOpcode raw) s) := rfl

theorem exec_ret_of_empty {s : State} (h : s.sp = 0) : exec .ret s = .next (raiseFault .stackUnderflow s) := by
  simp [exec, execRet, pop, h, OpResult.map, conclude]

theorem exec_ret_of_entry {s : State} {a : Word} (h : 0 < s.sp) (ha : s.stack[s.sp - 1]? = some a) :
    exec .ret s = .next ((s.withSp (s.sp - 1)).withPc a) := by
  simp [exec, execRet, pop, Nat.ne_of_gt h, ha, OpResult.map, conclude]

theorem exec_call_of_full {s : State} (nnn : Addr12) (h : s.sp = s.stackDepth) :
    exec (.call nnn) s = .next (raiseFault .stackOverflow s) := by
  simp [exec, execCall, push, h, OpResult.map, conclude]

theorem exec_call_of_free {s : State} (nnn : Addr12) (h : s.sp < s.stackDepth) :
    exec (.call nnn) s =
      .next (((s.withStack (s.stack.set s.sp s.pc)).withSp (s.sp + 1)).withPc (targetOf nnn)) := by
  simp [exec, execCall, push, h, Nat.ne_of_lt h, OpResult.map, conclude]

/-! ## Well-formed states: the invariant of every run -/

/-- Every instruction keeps memory canonical, the stack's size, and SP within the stack: CALL pushes only below
STACK_DEPTH, RET pops only above 0, and nothing else moves SP (R27, R28). -/
theorem exec_keeps_wf {i : Instr} {s t : State} (hs : s.WF) (h : exec i s = .next t) :
    t.WF ∧ t.stackDepth = s.stackDepth := by
  have ⟨hmem, hdepth, hsp⟩ := hs
  rcases exec_next h with ⟨-, rfl⟩ | ⟨-, -, rfl⟩ | ⟨-, a, -, -, rfl⟩ | ⟨nnn, -, -, rfl⟩ | ⟨nnn, -, hfree, rfl⟩ |
    ⟨x, y, -, rfl⟩ | ⟨raw, -, rfl⟩
  · exact ⟨hs, rfl⟩
  · exact ⟨hs, rfl⟩
  · exact ⟨⟨hmem, hdepth, (Nat.sub_le _ _).trans hsp⟩, rfl⟩
  · exact ⟨hs, rfl⟩
  · have hlen : s.stackDepth = (s.stack.set s.sp s.pc).length := List.length_set.symm
    exact ⟨⟨hmem, hdepth.trans_eq hlen, (Nat.succ_le_of_lt hfree).trans_eq hlen⟩, hlen.symm⟩
  · exact ⟨hs, rfl⟩
  · exact ⟨hs, rfl⟩

/-- Every step keeps a state well-formed, and the size of its stack. -/
theorem step_keeps_wf {s t : State} (hs : s.WF) (h : step s = .next t) :
    t.WF ∧ t.stackDepth = s.stackDepth := by
  rcases step_next h with ⟨-, rfl⟩ | ⟨-, -, rfl⟩ | ⟨-, -, w, -, he⟩
  · exact ⟨hs, rfl⟩
  · exact ⟨hs, rfl⟩
  · exact exec_keeps_wf (s := advance s) hs he

theorem State.resetWith_wf (entry : Word) {depth : Nat} (h : 1 ≤ depth) : (State.resetWith entry depth).WF :=
  ⟨by simp [Memory.wf], by simpa using h, Nat.zero_le _⟩

theorem Prepared.wf {s : State} (h : Prepared s) : s.WF := by
  obtain ⟨entry, depth, m, v, hdepth, hm, rfl⟩ := h
  obtain ⟨-, hstack⟩ := State.resetWith_wf entry hdepth
  exact ⟨hm, hstack⟩

theorem Reachable.wf {s : State} (h : Reachable s) : s.WF := by
  obtain ⟨s₀, hprep, n, hmoves⟩ := h
  exact hmoves.invariant (fun _ _ hs ht => (step_keeps_wf hs ht.2).1) hprep.wf

/-- Settles O19: a reachable state is well-formed, and the ends of the stack are `push`'s and `pop`'s own tests. -/
theorem stackPointerStaysInTheStack : Obligations.StackPointerStaysInTheStack := by
  intro s hs
  obtain ⟨-, -, hsp⟩ := hs.wf
  exact ⟨Nat.zero_le _, hsp, fun a => push_eq_stackOverflow_iff a s, pop_eq_stackUnderflow_iff s,
    length_liveEntries hsp⟩

/-! ## Which registers an instruction reads and writes -/

/-- ADD writes `V[x]` and VF only (R24). -/
theorem addWithFlag_reg_other {x y i : RegIndex} (s : State) (hx : i ≠ x) (hf : i ≠ Config.flagIndex) :
    (addWithFlag x y s).reg i = s.reg i := by
  rw [addWithFlag_reg, if_neg hf, if_neg hx]

/-- What ADD leaves in a register it writes is fixed by its two operands (R24). -/
theorem addWithFlag_reg_congr {x y i : RegIndex} {s s' : State} (hx : s'.reg x = s.reg x) (hy : s'.reg y = s.reg y)
    (hi : i = x ∨ i = Config.flagIndex) : (addWithFlag x y s').reg i = (addWithFlag x y s).reg i := by
  rw [addWithFlag_reg, addWithFlag_reg, hx, hy]
  rcases hi with rfl | rfl
  · simp
  · simp

/-- Every instruction but ADD writes no register (R24). -/
theorem exec_keeps_regs {i : Instr} {s t : State} (hi : ∀ x y, i ≠ .add x y) (h : exec i s = .next t) :
    t.regs = s.regs := by
  rcases exec_next h with ⟨-, rfl⟩ | ⟨-, -, rfl⟩ | ⟨-, a, -, -, rfl⟩ | ⟨nnn, -, -, rfl⟩ | ⟨nnn, -, -, rfl⟩ |
    ⟨x, y, hadd, -⟩ | ⟨raw, -, rfl⟩
  · rfl
  · rfl
  · rfl
  · rfl
  · rfl
  · exact absurd hadd (hi x y)
  · rfl

/-- Every instruction but ADD reads no register: with any other register contents it completes the same way, by the
same equation, since its tests are on SP and the stack alone (R24). -/
theorem exec_withRegs {i : Instr} {s t : State} (hi : ∀ x y, i ≠ .add x y) (h : exec i s = .next t)
    (v : Vector Byte 16) : exec i (s.withRegs v) = .next (t.withRegs v) := by
  rcases exec_next h with ⟨rfl, rfl⟩ | ⟨rfl, h0, rfl⟩ | ⟨rfl, a, hpos, ha, rfl⟩ | ⟨nnn, rfl, hfull, rfl⟩ |
    ⟨nnn, rfl, hfree, rfl⟩ | ⟨x, y, hadd, -⟩ | ⟨raw, rfl, rfl⟩
  · exact exec_halt _
  · exact exec_ret_of_empty h0
  · exact exec_ret_of_entry (s := s.withRegs v) hpos ha
  · exact exec_call_of_full nnn hfull
  · exact exec_call_of_free (s := s.withRegs v) nnn hfree
  · exact absurd hadd (hi x y)
  · exact exec_unimplemented raw _

/-- Settles O42: ADD by what `addWithFlag` leaves in each register, the other instructions by their frame and by
running them on other register contents. -/
theorem registerAccessByInstruction : Obligations.RegisterAccessByInstruction := by
  refine ⟨fun x y s t h i hx hf => ?_, fun x y s s' t t' hx hy h h' => ?_, fun i s t hi h => ⟨fun r => ?_, ?_⟩⟩
  · obtain rfl : addWithFlag x y s = t := Host.Outcome.next.inj h
    exact addWithFlag_reg_other s hx hf
  · obtain rfl : addWithFlag x y s = t := Host.Outcome.next.inj h
    obtain rfl : addWithFlag x y s' = t' := Host.Outcome.next.inj h'
    exact ⟨addWithFlag_reg_congr hx hy (.inl rfl), addWithFlag_reg_congr hx hy (.inr rfl)⟩
  · unfold State.reg
    rw [exec_keeps_regs hi h]
  · exact exec_withRegs hi h

end Sys2Proof.Machine

namespace Sys2Proof

/-! ## The decoder's fields as numbers (spec/30_encoding.md R72) -/

theorem fieldsOf_c_toNat (w : Word) : (fieldsOf w).c.toNat = w.toNat / 4096 % 16 := by
  simp [fieldsOf, BitVec.extractLsb'_toNat, Nat.shiftRight_eq_div_pow]

theorem fieldsOf_x_toNat (w : Word) : (fieldsOf w).x.toNat = w.toNat / 256 % 16 := by
  simp [fieldsOf, BitVec.extractLsb'_toNat, Nat.shiftRight_eq_div_pow]

theorem fieldsOf_y_toNat (w : Word) : (fieldsOf w).y.toNat = w.toNat / 16 % 16 := by
  simp [fieldsOf, BitVec.extractLsb'_toNat, Nat.shiftRight_eq_div_pow]

theorem fieldsOf_d_toNat (w : Word) : (fieldsOf w).d.toNat = w.toNat % 16 := by
  simp [fieldsOf, BitVec.extractLsb'_toNat]

theorem fieldsOf_nnn_toNat (w : Word) : (fieldsOf w).nnn.toNat = w.toNat % 4096 := by
  simp [fieldsOf, BitVec.extractLsb'_toNat]

/-! ## The select signals as tests on the word (R78) -/

/-- The four nibbles fix the word (R74). -/
theorem fieldsOf_nibbles_iff (w : Word) (c x y d : Nibble) :
    (fieldsOf w).c = c ∧ (fieldsOf w).x = x ∧ (fieldsOf w).y = y ∧ (fieldsOf w).d = d ↔
      w.toNat = c.toNat * 4096 + x.toNat * 256 + y.toNat * 16 + d.toNat := by
  have hw := w.isLt
  have hc := c.isLt
  have hx := x.isLt
  have hy := y.isLt
  have hd := d.isLt
  simp only [← BitVec.toNat_inj, fieldsOf_c_toNat, fieldsOf_x_toNat, fieldsOf_y_toNat, fieldsOf_d_toNat]
  omega

theorem isHalt_iff (w : Word) : (select (fieldsOf w)).isHalt = true ↔ w.toNat = 0 := by
  simpa [select, and_assoc] using fieldsOf_nibbles_iff w 0x0#4 0x0#4 0x0#4 0x0#4

theorem isRet_iff (w : Word) : (select (fieldsOf w)).isRet = true ↔ w.toNat = 0xEE := by
  simpa [select, and_assoc] using fieldsOf_nibbles_iff w 0x0#4 0x0#4 0xE#4 0xE#4

theorem isCall_iff (w : Word) : (select (fieldsOf w)).isCall = true ↔ w.toNat / 4096 = 2 := by
  have := w.isLt
  simp only [select, beq_iff_eq, ← BitVec.toNat_inj, BitVec.toNat_ofNat, fieldsOf_c_toNat]
  omega

theorem isAdd_iff (w : Word) : (select (fieldsOf w)).isAdd = true ↔ w.toNat / 4096 = 8 ∧ w.toNat % 16 = 4 := by
  have := w.isLt
  simp only [select, Bool.and_eq_true, beq_iff_eq, ← BitVec.toNat_inj, BitVec.toNat_ofNat, fieldsOf_c_toNat,
    fieldsOf_d_toNat]
  omega

/-! ## What a word decodes to (R80 to R84) -/

/-- The decoder by tests on the word's value: the one place that goes through its branches. No word passes two of
the tests (R79), which is why the converses below hold. -/
theorem decodeWord_eq (w : Word) :
    decodeWord w =
      if w.toNat = 0 then .halt
      else if w.toNat = 0xEE then .ret
      else if w.toNat / 4096 = 2 then .call (fieldsOf w).nnn
      else if w.toNat / 4096 = 8 ∧ w.toNat % 16 = 4 then .add (fieldsOf w).x.toFin (fieldsOf w).y.toFin
      else .unimplemented w := by
  simp only [decodeWord, isHalt_iff, isRet_iff, isCall_iff, isAdd_iff]

theorem decodeWord_eq_halt_iff (w : Word) : decodeWord w = .halt ↔ w.toNat = 0 := by
  rw [decodeWord_eq]
  split_ifs <;> simp [*]

theorem decodeWord_eq_ret_iff (w : Word) : decodeWord w = .ret ↔ w.toNat = 0xEE := by
  rw [decodeWord_eq]
  split_ifs <;> simp [*]

/-- The words of CALL: class 2, with the target in the low twelve bits (R82). -/
theorem decodeWord_eq_call_iff (w : Word) (nnn : Addr12) :
    decodeWord w = .call nnn ↔ w.toNat / 4096 = 2 ∧ w.toNat % 4096 = nnn.toNat := by
  rw [decodeWord_eq, ← fieldsOf_nnn_toNat, BitVec.toNat_inj]
  split_ifs <;> simp [*]

/-- The words of ADD: class 8 and low nibble 4, with the register indices in the two nibbles between (R83). -/
theorem decodeWord_eq_add_iff (w : Word) (x y : RegIndex) :
    decodeWord w = .add x y ↔
      (w.toNat / 4096 = 8 ∧ w.toNat % 16 = 4) ∧ w.toNat / 256 % 16 = x.val ∧ w.toNat / 16 % 16 = y.val := by
  rw [decodeWord_eq, ← fieldsOf_x_toNat, ← fieldsOf_y_toNat]
  split_ifs <;> simp [*, Fin.ext_iff]

theorem exists_decodeWord_eq_call_iff (w : Word) : (∃ nnn, decodeWord w = .call nnn) ↔ w.toNat / 4096 = 2 := by
  simp only [decodeWord_eq_call_iff]
  exact ⟨fun ⟨_, hc, _⟩ => hc, fun hc => ⟨(fieldsOf w).nnn, hc, (fieldsOf_nnn_toNat w).symm⟩⟩

theorem exists_decodeWord_eq_add_iff (w : Word) :
    (∃ x y, decodeWord w = .add x y) ↔ w.toNat / 4096 = 8 ∧ w.toNat % 16 = 4 := by
  simp only [decodeWord_eq_add_iff]
  exact ⟨fun ⟨_, _, hcd, _⟩ => hcd, fun hcd => ⟨(fieldsOf w).x.toFin, (fieldsOf w).y.toFin, hcd,
    (fieldsOf_x_toNat w).symm, (fieldsOf_y_toNat w).symm⟩⟩

/-! ## The masks of R82 and R83 as arithmetic -/

/-- A mask acts on the class nibble and on the low twelve bits apart. -/
theorem and_toNat_split (w m : Word) :
    (w &&& m).toNat = (w.toNat / 4096 &&& m.toNat / 4096) * 4096 + (w.toNat % 4096 &&& m.toNat % 4096) := by
  have hdiv : (w.toNat &&& m.toNat) / 4096 = w.toNat / 4096 &&& m.toNat / 4096 := Nat.and_div_two_pow (n := 12)
  have hmod : (w.toNat &&& m.toNat) % 4096 = w.toNat % 4096 &&& m.toNat % 4096 := Nat.and_mod_two_pow (n := 12)
  rw [BitVec.toNat_and, ← hdiv, ← hmod, Nat.div_add_mod']

/-- The mask 0xF000 keeps the class nibble (R82). -/
theorem and_callMask_eq_iff (w : Word) : w &&& 0xF000#16 = 0x2000#16 ↔ w.toNat / 4096 = 2 := by
  have hlt := w.isLt
  have hclass : w.toNat / 4096 &&& 15 = w.toNat / 4096 % 16 := Nat.and_two_pow_sub_one_eq_mod _ 4
  have hval : (w &&& 0xF000#16).toNat = w.toNat / 4096 % 16 * 4096 := by
    rw [and_toNat_split]
    simp [hclass]
  rw [← BitVec.toNat_inj, hval, BitVec.toNat_ofNat]
  omega

/-- The mask 0xF00F keeps the class nibble and the low nibble (R83). -/
theorem and_addMask_eq_iff (w : Word) : w &&& 0xF00F#16 = 0x8004#16 ↔ w.toNat / 4096 = 8 ∧ w.toNat % 16 = 4 := by
  have hlt := w.isLt
  have hclass : w.toNat / 4096 &&& 15 = w.toNat / 4096 % 16 := Nat.and_two_pow_sub_one_eq_mod _ 4
  have hlow : w.toNat % 4096 &&& 15 = w.toNat % 4096 % 16 := Nat.and_two_pow_sub_one_eq_mod _ 4
  have hval : (w &&& 0xF00F#16).toNat = w.toNat / 4096 % 16 * 4096 + w.toNat % 4096 % 16 := by
    rw [and_toNat_split]
    simp [hclass, hlow]
  rw [← BitVec.toNat_inj, hval, BitVec.toNat_ofNat]
  omega

end Sys2Proof

namespace Sys2Proof.Machine

/-! ## Reading two bytes -/

/-- Both bytes in memory: `MemRead(addr, 2)` is the number of the word made of them (R71). -/
theorem memRead_two_ok {m : Memory} {addr : Word} (h : inMemory (addr.toNat + 1)) :
    memRead m addr 2 =
      .ok (wordOfBytes (Memory.byteAt m addr.toNat) (Memory.byteAt m (addr.toNat + 1))).toNat := by
  have hall : ∀ k < 2, inMemory (addr.toNat + k) := fun k hk =>
    (Nat.add_le_add_left (Nat.le_of_lt_succ hk) addr.toNat).trans_lt h
  rw [memRead, if_pos hall, wordOfBytes_toNat]
  simp [bytesFrom, bigEndian]

/-! ## The obligations of the encoding -/

/-- Settles O1: each output by its own formula. -/
theorem decoderFieldsFollowTheFormulas : Obligations.DecoderFieldsFollowTheFormulas := fun v =>
  ⟨fieldsOf_c_toNat v, fieldsOf_x_toNat v, fieldsOf_y_toNat v, fieldsOf_d_toNat v, fieldsOf_nnn_toNat v⟩

/-- Settles O4: pattern by pattern, the tests on the word's value are the pattern's digits and the mask's match. -/
theorem opcodePatternsDecodeExactly : Obligations.OpcodePatternsDecodeExactly := by
  intro w
  refine ⟨?halt, ?ret, fun nnn => ?call, ?someCall, fun x y => ?add, ?someAdd⟩
  case halt => rw [decodeWord_eq_halt_iff, ← BitVec.toNat_inj, BitVec.toNat_ofNat]
  case ret => rw [decodeWord_eq_ret_iff, ← BitVec.toNat_inj, BitVec.toNat_ofNat]
  case call =>
    have hnnn := nnn.isLt
    rw [decodeWord_eq_call_iff]
    omega
  case someCall => rw [exists_decodeWord_eq_call_iff, and_callMask_eq_iff]
  case add =>
    have hx := x.isLt
    have hy := y.isLt
    rw [decodeWord_eq_add_iff]
    omega
  case someAdd => rw [exists_decodeWord_eq_add_iff, and_addMask_eq_iff]

/-- Settles O10: `fetch` and `MemRead(pc, 2)` both answer the word of the two bytes, whose value is their big-endian sum. -/
theorem fetchReadsTheWordHighByteFirst : Obligations.FetchReadsTheWordHighByteFirst := by
  intro s hin
  exact ⟨_, fetch_ok hin, memRead_two_ok hin, wordOfBytes_toNat _ _⟩

end Sys2Proof.Machine

namespace Sys2Proof

/-! ## Decoding and encoding are inverse, instruction by instruction (R80 to R84) -/

/-- The class digit of a CALL stands above its target (R82). -/
theorem encode_call_toNat (nnn : Addr12) : (encode (.call nnn)).toNat = 0x2000 + nnn.toNat := by
  have hnnn := nnn.isLt
  rw [encode, BitVec.toNat_or, BitVec.toNat_setWidth_of_le (by decide)]
  exact (Nat.two_pow_add_eq_or_of_lt (i := 12) hnnn 2).symm

/-- The four digits of an ADD do not overlap (R83): checked over the 256 pairs of registers. -/
theorem encode_add_toNat : ∀ x y : RegIndex, (encode (.add x y)).toNat = 0x8004 + x.val * 256 + y.val * 16 := by
  decide

/-- `matchesNoRow` by the tests of the decoder (R84). -/
theorem matchesNoRow_iff (w : Word) :
    matchesNoRow w = true ↔ w.toNat ≠ 0 ∧ w.toNat ≠ 0xEE ∧ w.toNat / 4096 ≠ 2 ∧
      ¬ (w.toNat / 4096 = 8 ∧ w.toNat % 16 = 4) := by
  have hall : w &&& 0xFFFF#16 = w := BitVec.and_allOnes
  simp only [matchesNoRow, hall, Bool.and_eq_true, bne_iff_ne, ne_eq, and_callMask_eq_iff, and_addMask_eq_iff,
    ← BitVec.toNat_inj (y := 0x0000#16), ← BitVec.toNat_inj (y := 0x00EE#16), BitVec.toNat_ofNat, and_assoc]

/-- A well-formed instruction is what a word decodes to exactly when the word is the instruction's own. -/
theorem decodeWord_eq_iff_eq_encode (w : Word) {i : Instr} (hi : i.wellFormed = true) :
    decodeWord w = i ↔ w = encode i := by
  cases i with
  | halt => rw [decodeWord_eq_halt_iff, ← BitVec.toNat_inj, encode, BitVec.toNat_ofNat]
  | ret => rw [decodeWord_eq_ret_iff, ← BitVec.toNat_inj, encode, BitVec.toNat_ofNat]
  | call nnn =>
    have hnnn := nnn.isLt
    rw [decodeWord_eq_call_iff, ← BitVec.toNat_inj, encode_call_toNat]
    omega
  | add x y =>
    have hx := x.isLt
    have hy := y.isLt
    rw [decodeWord_eq_add_iff, ← BitVec.toNat_inj, encode_add_toNat]
    omega
  | unimplemented raw =>
    obtain ⟨hhalt, hret, hcall, hadd⟩ := (matchesNoRow_iff raw).1 hi
    refine ⟨fun h => ?_, fun h => ?_⟩
    · rw [decodeWord_eq] at h
      split_ifs at h
      exact Instr.unimplemented.inj h
    · obtain rfl : w = raw := h
      rw [decodeWord_eq, if_neg hhalt, if_neg hret, if_neg hcall, if_neg hadd]

end Sys2Proof

namespace Sys2Proof.Machine

/-! ## The run state after a step (spec/40_execution_cycle.md R105) -/

/-- Where the next word is `w`, an instruction's word is next exactly when `w` decodes to the instruction. -/
theorem nextWord_encode_iff {s : State} {w : Word} (h : NextWord s w) {i : Instr} (hi : i.wellFormed = true) :
    NextWord s (encode i) ↔ decodeWord w = i := by
  rw [decodeWord_eq_iff_eq_encode w hi]
  exact ⟨nextWord_unique h, fun e => e ▸ h⟩

/-- After an instruction the machine is Running where the instruction was an ADD, a CALL with a free slot or a RET
with a live entry. -/
theorem exec_run_eq_running_iff {i : Instr} {s t : State} (hr : s.run = .running) (h : exec i s = .next t) :
    t.run = .running ↔
      (∃ x y, i = .add x y) ∨ (∃ nnn, i = .call nnn ∧ s.sp < s.stackDepth) ∨ (i = .ret ∧ 1 ≤ s.sp) := by
  rcases exec_next h with ⟨rfl, rfl⟩ | ⟨rfl, h0, rfl⟩ | ⟨rfl, a, hpos, -, rfl⟩ | ⟨nnn, rfl, hfull, rfl⟩ |
    ⟨nnn, rfl, hfree, rfl⟩ | ⟨x, y, rfl, rfl⟩ | ⟨raw, rfl, rfl⟩
  · simp
  · simp [h0]
  · simp [hr, Nat.succ_le_of_lt hpos]
  · simp [hfull]
  · simp [hr, hfree]
  · simp [hr]
  · simp

/-- HALT is the one instruction that halts. -/
theorem exec_run_eq_halted_iff {i : Instr} {s t : State} (hr : s.run = .running) (h : exec i s = .next t) :
    t.run = .halted ↔ i = .halt := by
  rcases exec_next h with ⟨rfl, rfl⟩ | ⟨rfl, -, rfl⟩ | ⟨rfl, a, -, -, rfl⟩ | ⟨nnn, rfl, -, rfl⟩ |
    ⟨nnn, rfl, -, rfl⟩ | ⟨x, y, rfl, rfl⟩ | ⟨raw, rfl, rfl⟩ <;> simp [hr]

/-- A state that is not Running has no move (R106). -/
theorem not_transition_of_not_running {s : State} (h : s.run ≠ .running) : ¬ ∃ t, Transition s t :=
  fun ⟨_, hr, _⟩ => h hr

/-- Settles O14: a fetch fault has no next word; where there is one, it names the dispatched instruction, and the
instruction fixes the run state. -/
theorem runStateAfterAStep : Obligations.RunStateAfterAStep := by
  refine ⟨fun s t hr hstep => ?_, fun s hhalted => not_transition_of_not_running (by simp [hhalted]),
    fun s r hfaulted => not_transition_of_not_running (by simp [hfaulted])⟩
  rcases Transition.cases ⟨hr, hstep⟩ with ⟨hout, rfl⟩ | ⟨w, hw, he⟩
  · have hnone : ∀ w, ¬ NextWord s w := fun w hw => hout hw.2.1
    simp [hnone]
  · have hadd (x y) := nextWord_encode_iff hw (i := .add x y) rfl
    have hcall (nnn) := nextWord_encode_iff hw (i := .call nnn) rfl
    have hret : NextWord s 0x00EE#16 ↔ _ := nextWord_encode_iff hw (i := .ret) rfl
    have hhalt : NextWord s 0x0000#16 ↔ _ := nextWord_encode_iff hw (i := .halt) rfl
    simp only [hadd, hcall, hret, hhalt]
    exact ⟨exec_run_eq_running_iff (s := advance s) hr he, exec_run_eq_halted_iff (s := advance s) hr he⟩

end Sys2Proof.Machine

namespace Sys2Proof.Machine

/-! ## The call stack below the limit and above empty (spec/41_control_transfer.md R120, R121) -/

theorem push_of_free (a : Word) {s : State} (h : s.sp < s.stackDepth) :
    push a s = .ok ((s.withStack (s.stack.set s.sp a)).withSp (s.sp + 1)) := by
  rw [push, if_neg (Nat.ne_of_lt h), if_pos h]

theorem pop_of_entry {s : State} {a : Word} (h : 0 < s.sp) (ha : s.stack[s.sp - 1]? = some a) :
    pop s = .ok (a, s.withSp (s.sp - 1)) := by
  simp [pop, Nat.ne_of_gt h, ha]

/-- The entry at SP - 1 exists while SP is within the stack (R28). -/
theorem exists_newest_entry {s : State} (h : 0 < s.sp) (hsp : s.sp ≤ s.stackDepth) :
    ∃ a, s.stack[s.sp - 1]? = some a :=
  ⟨_, List.getElem?_eq_getElem ((Nat.sub_one_lt_of_lt h).trans_le hsp)⟩

/-- The stack after a push into a free slot: the pushed value at SP, every other entry as it was (R120). -/
theorem getElem?_stack_set_sp {s : State} (a : Word) (h : s.sp < s.stackDepth) (k : Nat) :
    (s.stack.set s.sp a)[k]? = if k = s.sp then some a else s.stack[k]? := by
  split_ifs with hk
  · rw [hk, List.getElem?_set_self h]
  · exact List.getElem?_set_ne (Ne.symm hk)

/-- Settles O26: overflow by `push`'s own test, and below it the frame of the one entry written. -/
theorem pushStoresOrOverflows : Obligations.PushStoresOrOverflows := by
  refine fun a s => ⟨(push_eq_stackOverflow_iff a s).2, fun hfree => ⟨_, push_of_free a hfree, ?_⟩⟩
  simp [getElem?_stack_set_sp a hfree, State.stackDepth]

/-- Settles O27: underflow by `pop`'s own test, and above it the entry that SP's bound provides. -/
theorem popReadsOrUnderflows : Obligations.PopReadsOrUnderflows := by
  refine fun s => ⟨(pop_eq_stackUnderflow_iff s).2, fun hpos hsp => ?_⟩
  obtain ⟨a, ha⟩ := exists_newest_entry hpos hsp
  exact ⟨a, ha, pop_of_entry hpos ha⟩

/-! ## RET as a whole step, and the fetch after it (R124) -/

/-- A Running machine whose next word is an instruction's own performs that instruction. -/
theorem step_of_nextWord_encode {s : State} {i : Instr} (hi : i.wellFormed = true) (h : NextWord s (encode i)) :
    step s = exec i (advance s) := by
  rw [step_of_nextWord h, (decodeWord_eq_iff_eq_encode _ hi).2 rfl]

/-- A RET with a live entry moves to that entry, unchecked, one level up. -/
theorem transition_ret_of_entry {s : State} {a : Word} (hw : NextWord s (encode .ret)) (h : 0 < s.sp)
    (ha : s.stack[s.sp - 1]? = some a) : Transition s (((advance s).withSp (s.sp - 1)).withPc a) := by
  have ⟨hr, _⟩ := hw
  exact ⟨hr, (step_of_nextWord_encode rfl hw).trans (exec_ret_of_entry (s := advance s) h ha)⟩

/-- A Running machine whose pc has no two bytes in memory moves to the fetch fault (spec/40_execution_cycle.md R101). -/
theorem transition_fetch_fault {s : State} (hr : s.run = .running) (h : ¬ inMemory (s.pc.toNat + 1)) :
    Transition s (raiseFault (.indexOutOfRange s.pc) s) :=
  ⟨hr, step_running_raise hr (fetch_raise h)⟩

/-- Settles O30: RET's two equations, and the move to an address without two bytes in memory followed by the fetch
fault there. -/
theorem retCompletesOrUnderflows : Obligations.RetCompletesOrUnderflows := by
  refine ⟨fun _ _ => exec_ret_of_entry, fun _ => exec_ret_of_empty, fun s a hw hpos ha hout => ?_⟩
  have hrun : (((advance s).withSp (s.sp - 1)).withPc a).run = .running := hw.1
  have hfetch : ¬ inMemory (a.toNat + 1) := Nat.not_lt.2 (Nat.succ_le_succ hout)
  exact ⟨_, _, a, transition_ret_of_entry hw hpos ha, hrun, transition_fetch_fault hrun hfetch, rfl⟩

end Sys2Proof.Machine

namespace Sys2Proof.Machine

/-! ## The ALU over the naturals (spec/42_arithmetic.md R140) -/

/-- Nine bits hold every sum of two bytes, so the true sum does not wrap. -/
theorem trueSum_toNat (a b : Byte) : (trueSum a b).toNat = a.toNat + b.toNat := by
  have hlt : a.toNat + b.toNat < 2 ^ 9 := by omega
  have hle : 8 ≤ 9 := by decide
  rw [trueSum, BitVec.toNat_add, BitVec.toNat_setWidth_of_le hle, BitVec.toNat_setWidth_of_le hle,
    Nat.mod_eq_of_lt hlt]

/-- The sum is the low eight bits of the true sum. -/
theorem aluAdd_sum_toNat (a b : Byte) : (aluAdd a b).1.toNat = (a.toNat + b.toNat) % 256 := by
  rw [aluAdd, BitVec.extractLsb'_toNat, trueSum_toNat, Nat.shiftRight_zero]

/-- The carry is the true sum's ninth bit: its quotient by 256, which is 0 or 1. -/
theorem aluAdd_carry_toNat (a b : Byte) : (aluAdd a b).2.toNat = (a.toNat + b.toNat) / 256 := by
  have hlt : (a.toNat + b.toNat) / 256 < 2 := by omega
  rw [aluAdd, BitVec.extractLsb'_toNat, trueSum_toNat, Nat.shiftRight_eq_div_pow]
  exact Nat.mod_eq_of_lt hlt

theorem aluAdd_carry_eq_one_iff (a b : Byte) : (aluAdd a b).2 = 1#1 ↔ a.toNat + b.toNat > 255 := by
  rw [← BitVec.toNat_inj, aluAdd_carry_toNat, BitVec.toNat_ofNat]
  omega

/-- Settles O37: the true sum does not wrap, and the sum and the carry are its remainder and quotient by 256. -/
theorem aluAddsWithCarry : Obligations.AluAddsWithCarry :=
  fun a b => ⟨trueSum_toNat a b, aluAdd_sum_toNat a b, aluAdd_carry_eq_one_iff a b⟩

end Sys2Proof.Machine

namespace Sys2Proof.Machine

/-! ## Faults (spec/60_exceptions.md) -/

/-- The run state after fault entry fixes the reason, and with it the whole state. -/
theorem raiseFault_eq_of_run {s : State} {r r' : FaultReason} (h : (raiseFault r' s).run = .faulted r) :
    raiseFault r' s = raiseFault r s :=
  congrArg (raiseFault · s) (RunState.faulted.inj h)

/-- An instruction that ends Faulted has done fault entry and nothing else (R206, R207). -/
theorem exec_eq_raiseFault {i : Instr} {s t : State} {r : FaultReason} (hr : s.run = .running)
    (h : exec i s = .next t) (hf : t.run = .faulted r) : t = raiseFault r s := by
  rcases exec_next h with ⟨-, rfl⟩ | ⟨-, -, rfl⟩ | ⟨-, a, -, -, rfl⟩ | ⟨nnn, -, -, rfl⟩ | ⟨nnn, -, -, rfl⟩ |
    ⟨x, y, -, rfl⟩ | ⟨raw, -, rfl⟩
  · simp at hf
  · exact raiseFault_eq_of_run hf
  · simp [hr] at hf
  · exact raiseFault_eq_of_run hf
  · simp [hr] at hf
  · simp [hr] at hf
  · exact raiseFault_eq_of_run hf

/-- A move into a Faulted state is fault entry, from the state before the step where the fetch failed and from the
advanced state where an instruction was dispatched (R201 to R204, R207). -/
theorem Transition.eq_raiseFault {s t : State} {r : FaultReason} (h : Transition s t) (hf : t.run = .faulted r) :
    (¬ inMemory (s.pc.toNat + 1) ∧ t = raiseFault r s) ∨
    (inMemory (s.pc.toNat + 1) ∧ t = raiseFault r (advance s)) := by
  rcases h.cases with ⟨hout, rfl⟩ | ⟨w, ⟨hr, hin, -⟩, he⟩
  · exact .inl ⟨hout, raiseFault_eq_of_run hf⟩
  · exact .inr ⟨hin, exec_eq_raiseFault (s := advance s) hr he hf⟩

/-- Settles O46: fault entry keeps everything but RUN, and the advance before a dispatch-stage fault moves the pc
alone. -/
theorem faultsArePrecise : Obligations.FaultsArePrecise := by
  intro s t r h hf
  rcases h.eq_raiseFault hf with ⟨hout, rfl⟩ | ⟨hin, rfl⟩
  · exact ⟨fun _ => rfl, fun _ => rfl, rfl, rfl, fun _ => rfl, fun hlt => absurd hlt hout⟩
  · exact ⟨fun _ => rfl, fun _ => rfl, rfl, rfl, fun hge => absurd hin (Nat.not_lt.2 hge), fun _ => rfl⟩

/-- Settles O32: the dispatched CALL or RET tests the stack of the advanced state, which is the stack before the
step. -/
theorem stackFaultsComeAfterTheAdvance : Obligations.StackFaultsComeAfterTheAdvance := by
  refine ⟨fun s nnn hw hfull => ?_, fun s hw hempty => ?_⟩
  · exact (step_of_nextWord_encode rfl hw).trans (exec_call_of_full (s := advance s) nnn hfull)
  · exact (step_of_nextWord_encode (i := .ret) rfl hw).trans (exec_ret_of_empty (s := advance s) hempty)

/-- Settles O44: a word that matches no row is the catch-all's own word, and the catch-all is fault entry. -/
theorem unimplementedFaultsWithTheRawWord : Obligations.UnimplementedFaultsWithTheRawWord :=
  ⟨exec_unimplemented, fun w s hnone hw =>
    (step_of_nextWord_encode (i := .unimplemented w) hnone hw).trans (exec_unimplemented w (advance s))⟩

/-- Settles O45: fault entry writes RUN alone, and a Faulted state has no move. -/
theorem faultEntrySetsRunOnly : Obligations.FaultEntrySetsRunOnly := by
  refine fun r s => ⟨rfl, rfl, ?_, not_transition_of_not_running (by simp)⟩
  rintro raw rfl
  rfl

end Sys2Proof.Machine

namespace Sys2Proof

/-! ## The decoder and the encoder are inverse (spec/30_encoding.md R73, R74, R86) -/

/-- The decoder gives the catch-all only for words that match no row (R84). -/
theorem decodeWord_wellFormed (w : Word) : (decodeWord w).wellFormed = true := by
  rw [decodeWord_eq]
  split_ifs with hhalt hret hcall hadd
  · rfl
  · rfl
  · rfl
  · rfl
  · exact (matchesNoRow_iff w).2 ⟨hhalt, hret, hcall, hadd⟩

/-- No bit of a word is dropped. -/
theorem encode_decodeWord (w : Word) : encode (decodeWord w) = w :=
  ((decodeWord_eq_iff_eq_encode w (decodeWord_wellFormed w)).1 rfl).symm

theorem decodeWord_encode {i : Instr} (hi : i.wellFormed = true) : decodeWord (encode i) = i :=
  (decodeWord_eq_iff_eq_encode _ hi).2 rfl

/-- Settles O6: the two bytes put together are the instruction's word, which decodes to the instruction. -/
theorem decodeOfEncodeIsTheInstruction : Obligations.DecodeOfEncodeIsTheInstruction := by
  intro i rest hi
  have hword := wordOfBytes_highByte_lowByte (encode i)
  rw [encodeBytes, List.cons_append, List.cons_append, List.nil_append, decodeBytes_cons_cons, hword,
    decodeWord_encode hi]

end Sys2Proof

namespace Sys2Proof.Machine

/-! ## Every step answers, and keeps the shape of the state (spec/40_execution_cycle.md R112) -/

/-- In a well-formed state every instruction answers a next state: SP within the stack leaves CALL and RET nothing but
their two ways to complete. -/
theorem exists_exec_next (i : Instr) {s : State} (hs : s.WF) : ∃ t, exec i s = .next t := by
  have ⟨_, _, hsp⟩ := hs
  cases i with
  | halt => exact ⟨_, exec_halt s⟩
  | ret =>
    rcases Nat.eq_zero_or_pos s.sp with h0 | hpos
    · exact ⟨_, exec_ret_of_empty h0⟩
    · obtain ⟨a, ha⟩ := exists_newest_entry hpos hsp
      exact ⟨_, exec_ret_of_entry hpos ha⟩
  | call nnn =>
    rcases hsp.eq_or_lt with hfull | hfree
    · exact ⟨_, exec_call_of_full nnn hfull⟩
    · exact ⟨_, exec_call_of_free nnn hfree⟩
  | add x y => exact ⟨_, exec_add x y s⟩
  | unimplemented raw => exact ⟨_, exec_unimplemented raw s⟩

/-- Settles O16: a terminal state answers itself, a fetch answers a word or a fault, and the dispatched instruction is
total. -/
theorem wellFormedStepAnswersNext : Obligations.WellFormedStepAnswersNext := by
  intro s hs
  by_cases hr : s.run = .running
  · by_cases hin : inMemory (s.pc.toNat + 1)
    · rw [step_running_ok hr (fetch_ok hin)]
      exact exists_exec_next _ (s := advance s) hs
    · exact ⟨_, step_running_raise hr (fetch_raise hin)⟩
  · exact ⟨s, step_terminal hr⟩

/-- Settles O17: no instruction touches memory or resizes the stack, and SP moves only by a push below STACK_DEPTH and
a pop above 0. -/
theorem everyStepKeepsStatesWellFormed : Obligations.EveryStepKeepsStatesWellFormed :=
  fun _ _ => step_keeps_wf

/-! ## Steps and the registers (spec/41_control_transfer.md R127) -/

/-- With any other registers an instruction does the same but for the registers it leaves: ADD moves on alike, the
others read none. -/
theorem exec_withRegs_exists {i : Instr} {s t : State} (h : exec i s = .next t) (v : Vector Byte 16) :
    ∃ v', exec i (s.withRegs v) = .next (t.withRegs v') := by
  by_cases hadd : ∃ x y, i = .add x y
  · obtain ⟨x, y, rfl⟩ := hadd
    obtain rfl : addWithFlag x y s = t := Host.Outcome.next.inj h
    exact ⟨(addWithFlag x y (s.withRegs v)).regs, exec_add x y _⟩
  · exact ⟨v, exec_withRegs (fun x y hi => hadd ⟨x, y, hi⟩) h v⟩

/-- Settles O43: the run state and the fetch read no register, and the dispatched instruction does the same up to
registers. -/
theorem controlFlowIgnoresRegisters : Obligations.ControlFlowIgnoresRegisters := by
  intro s t v h
  rcases step_next h with ⟨hr, rfl⟩ | ⟨hr, hout, rfl⟩ | ⟨hr, -, w, hf, he⟩
  · exact ⟨v, step_terminal hr⟩
  · exact ⟨v, step_running_raise hr (fetch_raise hout)⟩
  · obtain ⟨v', he'⟩ := exec_withRegs_exists he v
    exact ⟨v', (step_running_ok (s := s.withRegs v) hr hf).trans he'⟩

/-! ## The live return addresses (spec/10_state.md R28) -/

/-- A push into a free slot puts the pushed value after the live entries. -/
theorem take_set_sp {s : State} (a : Word) (h : s.sp < s.stackDepth) :
    (s.stack.set s.sp a).take (s.sp + 1) = liveEntries s ++ [a] := by
  rw [List.take_add_one, List.take_set_of_le (Nat.le_refl _), List.getElem?_set_self h]
  rfl

/-- A pop takes the last live entry. -/
theorem liveEntries_eq_append {s : State} {a : Word} (h : 0 < s.sp) (ha : s.stack[s.sp - 1]? = some a) :
    liveEntries s = s.stack.take (s.sp - 1) ++ [a] := by
  obtain ⟨n, hn⟩ := Nat.exists_eq_add_one_of_ne_zero (Nat.ne_of_gt h)
  rw [hn, Nat.add_sub_cancel] at ha
  rw [liveEntries, hn, List.take_add_one, ha]
  rfl

theorem length_liveEntries_le (s : State) : (liveEntries s).length ≤ s.sp :=
  List.length_take_le _ _

/-- What a move does to the pc, the live entries and SP, by the word at the pc: everything an argument about the
machine's control needs (spec/40_execution_cycle.md R105, R109). -/
inductive ControlMove (s t : State) : Prop where
  /-- HALT, or a fault: the run is over. -/
  | ends (hrun : t.run ≠ .running) (hsp : t.sp = s.sp) (hlive : liveEntries t = liveEntries s)
  /-- ADD: on to the next word. -/
  | add (x y : RegIndex) (hword : NextWord s (encode (.add x y))) (hrun : t.run = .running)
      (hpc : t.pc = s.pc + 2#16) (hsp : t.sp = s.sp) (hlive : liveEntries t = liveEntries s)
  /-- A CALL with a free slot: the next word's address goes onto the stack. -/
  | call (nnn : Addr12) (hword : NextWord s (encode (.call nnn))) (hrun : t.run = .running)
      (hpc : t.pc = targetOf nnn) (hsp : t.sp = s.sp + 1) (hlive : liveEntries t = liveEntries s ++ [s.pc + 2#16])
  /-- A RET with a live entry: the newest entry becomes the pc. -/
  | ret (hword : NextWord s (encode .ret)) (hrun : t.run = .running) (hsp : s.sp = t.sp + 1)
      (hlen : (liveEntries t).length = t.sp) (hlive : liveEntries s = liveEntries t ++ [t.pc])

/-- A next word that is an instruction's own: the move is what the instruction answers after the advance. -/
theorem transition_of_exec {i : Instr} {s t : State} (hi : i.wellFormed = true) (hw : NextWord s (encode i))
    (he : exec i (advance s) = .next t) : Transition s t :=
  ⟨hw.1, (step_of_nextWord_encode hi hw).trans he⟩

/-- A move is a fetch fault, or performs the instruction whose own word stands at the pc. -/
theorem Transition.cases_instr {s t : State} (h : Transition s t) :
    (¬ inMemory (s.pc.toNat + 1) ∧ t = raiseFault (.indexOutOfRange s.pc) s) ∨
    (∃ i : Instr, NextWord s (encode i) ∧ exec i (advance s) = .next t) := by
  rcases h.cases with hfault | ⟨w, hw, he⟩
  · exact .inl hfault
  · exact .inr ⟨decodeWord w, by rwa [encode_decodeWord], he⟩

theorem Transition.controlMove {s t : State} (h : Transition s t) : ControlMove s t := by
  have ⟨hr, _⟩ := h
  rcases h.cases_instr with ⟨-, rfl⟩ | ⟨i, hw, he⟩
  · exact .ends (by simp) rfl rfl
  rcases exec_next he with ⟨rfl, rfl⟩ | ⟨rfl, -, rfl⟩ | ⟨rfl, a, hpos, ha, rfl⟩ | ⟨nnn, rfl, -, rfl⟩ |
    ⟨nnn, rfl, hfree, rfl⟩ | ⟨x, y, rfl, rfl⟩ | ⟨raw, rfl, rfl⟩
  · exact .ends (by simp) rfl rfl
  · exact .ends (by simp) rfl rfl
  · have hlt : s.sp - 1 < s.stackDepth := (List.getElem?_eq_some_iff.1 ha).1
    exact .ret hw hr (Nat.succ_pred_eq_of_pos hpos).symm (length_liveEntries hlt.le)
      (liveEntries_eq_append (s := s) hpos ha)
  · exact .ends (by simp) rfl rfl
  · exact .call nnn hw hr rfl rfl (take_set_sp (s := s) _ hfree)
  · exact .add x y hw hr rfl rfl rfl
  · exact .ends (by simp) rfl rfl

/-- A pc with both bytes in memory advances without wrapping, to at most MEM_SIZE (R107). -/
theorem NextWord.pc_add_two_toNat {s : State} {w : Word} (h : NextWord s w) :
    (s.pc + 2#16).toNat = s.pc.toNat + 2 ∧ s.pc.toNat + 2 ≤ 4096 := by
  have hin : s.pc.toNat + 1 < 4096 := h.2.1
  rw [BitVec.toNat_add, BitVec.toNat_ofNat]
  omega

theorem targetOf_toNat (nnn : Addr12) : (targetOf nnn).toNat = nnn.toNat :=
  BitVec.toNat_setWidth_of_le (by decide)

/-- Settles O21: a pushed address and the pc after ADD are a fetched pc + 2, a CALL's target has 12 bits, and a RET's
pc was a live entry. -/
theorem pcStaysInRange : Obligations.PcStaysInRange := by
  intro s t hlow h
  cases h.controlMove with
  | ends hrun hsp hlive => exact ⟨hlive ▸ hlow, fun hr => absurd hr hrun⟩
  | add x y hw hrun hpc hsp hlive =>
    have ⟨hadv, hle⟩ := hw.pc_add_two_toNat
    exact ⟨hlive ▸ hlow, fun _ => by rwa [hpc, hadv]⟩
  | call nnn hw hrun hpc hsp hlive =>
    have ⟨hadv, hle⟩ := hw.pc_add_two_toNat
    refine ⟨?_, fun _ => ?_⟩
    · rw [hlive, List.forall_mem_append, List.forall_mem_singleton, hadv]
      exact ⟨hlow, hle⟩
    · rw [hpc, targetOf_toNat]
      exact nnn.isLt.le
  | ret hw hrun hsp hlen hlive =>
    rw [hlive, List.forall_mem_append, List.forall_mem_singleton] at hlow
    obtain ⟨hrest, hlast⟩ := hlow
    exact ⟨hrest, fun _ => hlast⟩

/-- A CALL's word names its target (R82). -/
theorem exists_nextWord_call_iff {s : State} {i : Instr} (hi : i.wellFormed = true) (h : NextWord s (encode i))
    (p : Addr12 → Prop) : (∃ nnn, p nnn ∧ NextWord s (encode (.call nnn))) ↔ ∃ nnn, p nnn ∧ i = .call nnn := by
  have hcall (nnn) : NextWord s (encode (.call nnn)) ↔ i = .call nnn := by
    rw [nextWord_encode_iff h rfl, decodeWord_encode hi]
  simp only [hcall]

/-- Settles O22: an even pc stays even past the advance, so pushed addresses are even and only a CALL's target can be
odd. -/
theorem pcParityIsTheProgramsDuty : Obligations.PcParityIsTheProgramsDuty := by
  intro s t hpc0 heven h
  cases h.controlMove with
  | ends hrun hsp hlive => exact ⟨hlive ▸ heven, fun hr => absurd hr hrun⟩
  | add x y hw hrun hpc hsp hlive =>
    have ⟨hadv, _⟩ := hw.pc_add_two_toNat
    refine ⟨hlive ▸ heven, fun _ => ?_⟩
    rw [exists_nextWord_call_iff rfl hw, hpc, hadv, Nat.add_mod_right]
    simp [hpc0]
  | call nnn hw hrun hpc hsp hlive =>
    have ⟨hadv, _⟩ := hw.pc_add_two_toNat
    refine ⟨?_, fun _ => ?_⟩
    · rw [hlive, List.forall_mem_append, List.forall_mem_singleton, hadv, Nat.add_mod_right]
      exact ⟨heven, hpc0⟩
    · rw [exists_nextWord_call_iff rfl hw, hpc, targetOf_toNat]
      simp
  | ret hw hrun hsp hlen hlive =>
    rw [hlive, List.forall_mem_append, List.forall_mem_singleton] at heven
    obtain ⟨hrest, hlast⟩ := heven
    refine ⟨hrest, fun _ => ?_⟩
    rw [exists_nextWord_call_iff rfl hw]
    simp [hlast]

/-! ## A CALL and the RET that matches it (spec/41_control_transfer.md R126) -/

/-- A move to an SP of at least `l.length` keeps `l` as the oldest live entries: only a RET drops an entry, and it
drops the newest. -/
theorem Transition.keeps_live_prefix {s t : State} {l : List Word} (h : Transition s t) (hsp : l.length ≤ t.sp)
    (hl : l <+: liveEntries s) : l <+: liveEntries t := by
  cases h.controlMove with
  | ends hrun hsp hlive => rwa [hlive]
  | add x y hw hrun hpc hsp' hlive => rwa [hlive]
  | call nnn hw hrun hpc hsp' hlive => exact hlive ▸ hl.trans (List.prefix_append _ _)
  | ret hw hrun hsp' hlen hlive =>
    have hnew : liveEntries t <+: liveEntries s := hlive ▸ List.prefix_append _ _
    exact List.prefix_of_prefix_length_le hl hnew (hlen ▸ hsp)

theorem MovesWithin.holds_at_start {p : State → Prop} {n : Nat} {s t : State} (h : MovesWithin p n s t) : p s := by
  cases h with
  | done hp => exact hp
  | move hp _ _ => exact hp

/-- So does a run whose SP never goes below it. -/
theorem MovesWithin.keeps_live_prefix {n : Nat} {s t : State} {l : List Word}
    (h : MovesWithin (fun r => l.length ≤ r.sp) n s t) (hl : l <+: liveEntries s) : l <+: liveEntries t := by
  induction h with
  | done _ => exact hl
  | move _ ht hrest ih => exact ih (ht.keeps_live_prefix hrest.holds_at_start hl)

/-- A CALL with a free slot appends the following word's address to the live entries. -/
theorem Transition.call_pushes {s t : State} {nnn : Addr12} (h : Transition s t)
    (hw : NextWord s (encode (.call nnn))) (hfree : s.sp < s.stackDepth) :
    t.sp = s.sp + 1 ∧ liveEntries t = liveEntries s ++ [s.pc + 2#16] := by
  obtain rfl := h.deterministic (transition_of_exec rfl hw (exec_call_of_free (s := advance s) nnn hfree))
  exact ⟨rfl, take_set_sp _ hfree⟩

/-- The move of a RET whose live entries are `l` and then `a`. -/
theorem Transition.ret_pops {s t : State} {l : List Word} {a : Word} (h : Transition s t)
    (hw : NextWord s (encode .ret)) (hsp : s.sp = l.length + 1) (hlive : liveEntries s = l ++ [a]) :
    t = ((advance s).withSp l.length).withPc a ∧ liveEntries t = l := by
  have hpos : 0 < s.sp := hsp ▸ Nat.succ_pos _
  have hpred : s.sp - 1 = l.length := by rw [hsp, Nat.add_sub_cancel]
  have hentry : s.stack[s.sp - 1]? = some a := by
    rw [← List.getElem?_take_of_lt (Nat.sub_one_lt_of_lt hpos), ← liveEntries, hlive, hpred]
    exact List.getElem?_concat_length
  obtain rfl := h.deterministic (transition_ret_of_entry hw hpos hentry)
  refine ⟨by rw [hpred], ?_⟩
  have hpop := liveEntries_eq_append hpos hentry
  rw [hlive] at hpop
  exact (List.append_inj_left' hpop rfl).symm

/-- Settles O33: the CALL appends its return address to the live entries, a run at that SP or above keeps them below
whatever it adds, and at the RET, back at that SP, they are all there is. -/
theorem matchingRetReturnsPastTheCall : Obligations.MatchingRetReturnsPastTheCall := by
  intro s t u v nnn n hcall hfree hst hmoves hsp hret huv
  obtain ⟨hspt, hlivet⟩ := hst.call_pushes hcall hfree
  have hlens : (liveEntries s).length = s.sp := length_liveEntries hfree.le
  have hlent : (liveEntries t).length = t.sp := by rw [hlivet, List.length_append, hlens, hspt, List.length_singleton]
  have hprefix : liveEntries t <+: liveEntries u :=
    MovesWithin.keeps_live_prefix (hlent.symm ▸ hmoves) (List.prefix_refl _)
  have hlive := hprefix.eq_of_length_le (hlent ▸ hsp ▸ length_liveEntries_le u)
  obtain ⟨rfl, hv⟩ := huv.ret_pops hret (by rw [hsp, hspt, hlens]) (hlive.symm.trans hlivet)
  exact ⟨rfl, hlens, hv, hret.1⟩

end Sys2Proof.Machine

namespace Sys2Proof.Machine

/-! ## Stale stack entries (spec/10_state.md R29) -/

/-- `l` can stand for the stack of `s`: it has its size, and its live entries. -/
def SameLiveStack (s : State) (l : List Word) : Prop := l.length = s.stackDepth ∧ l.take s.sp = liveEntries s

theorem sameButStale_iff (s t : State) : SameButStale s t ↔ ∃ l, t = s.withStack l ∧ SameLiveStack s l := by
  refine ⟨fun ⟨hmem, hregs, hpc, hsp, hrun, hdepth, hlive⟩ => ⟨t.stack, ?_, hdepth.symm, ?_⟩, ?_⟩
  · cases s
    cases t
    simp_all [State.withStack]
  · rw [hlive, liveEntries, hsp]
  · rintro ⟨l, rfl, hlen, hlive⟩
    exact ⟨rfl, rfl, rfl, rfl, rfl, hlen.symm, hlive.symm⟩

/-- With other stale entries an instruction does the same: RET reads a live entry, and the tests are on SP and the
stack's size. -/
theorem exec_withStack {i : Instr} {s t : State} {l : List Word} (h : exec i s = .next t) (hl : SameLiveStack s l) :
    ∃ l', exec i (s.withStack l) = .next (t.withStack l') ∧ SameLiveStack t l' := by
  have ⟨hlen, hlive⟩ := hl
  rcases exec_next h with ⟨rfl, rfl⟩ | ⟨rfl, h0, rfl⟩ | ⟨rfl, a, hpos, ha, rfl⟩ | ⟨nnn, rfl, hfull, rfl⟩ |
    ⟨nnn, rfl, hfree, rfl⟩ | ⟨x, y, rfl, rfl⟩ | ⟨raw, rfl, rfl⟩
  · exact ⟨l, exec_halt _, hl⟩
  · exact ⟨l, exec_ret_of_empty h0, hl⟩
  · have hbelow (k) (hk : k < s.sp) : l[k]? = s.stack[k]? := by
      rw [← List.getElem?_take_of_lt hk, hlive, liveEntries, List.getElem?_take_of_lt hk]
    have hentry := (hbelow _ (Nat.sub_one_lt_of_lt hpos)).trans ha
    have htake : l.take (s.sp - 1) = s.stack.take (s.sp - 1) := by
      have := congrArg (List.take (s.sp - 1)) hlive
      rwa [liveEntries, List.take_take, List.take_take, Nat.min_eq_left (Nat.sub_le _ _)] at this
    exact ⟨l, exec_ret_of_entry (s := s.withStack l) hpos hentry, hlen, htake⟩
  · exact ⟨l, exec_call_of_full (s := s.withStack l) nnn (hfull.trans hlen.symm), hl⟩
  · have hfree' : s.sp < l.length := hfree.trans_eq hlen.symm
    refine ⟨l.set s.sp s.pc, exec_call_of_free (s := s.withStack l) nnn hfree', ?_, ?_⟩
    · exact (List.length_set.trans hlen).trans List.length_set.symm
    · exact (take_set_sp (s := s.withStack l) s.pc hfree').trans
        ((congrArg (· ++ [s.pc]) hlive).trans (take_set_sp s.pc hfree).symm)
  · exact ⟨l, exec_add x y _, hl⟩
  · exact ⟨l, exec_unimplemented raw _, hl⟩

/-- Settles O35: the run state and the fetch read no stack entry, the dispatched instruction does the same up to
stale entries, and the readback shows none. -/
theorem staleEntriesAreNotObservable : Obligations.StaleEntriesAreNotObservable := by
  intro s t s' hst h
  obtain ⟨l, rfl, hl⟩ := (sameButStale_iff s t).1 hst
  suffices hstep : ∃ l', step (s.withStack l) = .next (s'.withStack l') ∧ SameLiveStack s' l' by
    obtain ⟨l', hstep, hl'⟩ := hstep
    exact ⟨_, hstep, (sameButStale_iff _ _).2 ⟨l', rfl, hl'⟩, rfl⟩
  rcases step_next h with ⟨hr, rfl⟩ | ⟨hr, hout, rfl⟩ | ⟨hr, -, w, hf, he⟩
  · exact ⟨l, step_terminal hr, hl⟩
  · exact ⟨l, step_running_raise hr (fetch_raise hout), hl⟩
  · obtain ⟨l', he', hl'⟩ := exec_withStack he hl
    exact ⟨l', (step_running_ok (s := s.withStack l) hr hf).trans he', hl'⟩

/-! ## Every run ends (spec/40_execution_cycle.md R113) -/

/-- From `s`, in fewer than `n` moves and with SP never below that of `s`, the run ends or comes to a RET back at the
SP of `s`. -/
def LevelEndsBefore (n : Nat) (s : State) : Prop :=
  ∃ m t, m < n ∧ MovesWithin (fun r => s.sp ≤ r.sp) m s t ∧ (RunEnded t ∨ t.sp = s.sp ∧ NextWord t (encode .ret))

theorem LevelEndsBefore.mono {m n : Nat} {s : State} (h : LevelEndsBefore m s) (hmn : m ≤ n) :
    LevelEndsBefore n s := by
  obtain ⟨k, t, hk, ht⟩ := h
  exact ⟨k, t, hk.trans_le hmn, ht⟩

theorem MovesWithin.mono {p q : State → Prop} (hpq : ∀ s, p s → q s) {n : Nat} {s t : State}
    (h : MovesWithin p n s t) : MovesWithin q n s t := by
  induction h with
  | done hp => exact .done (hpq _ hp)
  | move hp ht _ ih => exact .move (hpq _ hp) ht ih

theorem MovesWithin.one {p : State → Prop} {s t : State} (h : Transition s t) (hs : p s) (ht : p t) :
    MovesWithin p 1 s t := .move hs h (.done ht)

/-- Moves within the level may precede the moves that end it. -/
theorem LevelEndsBefore.prepend {m n k : Nat} {s t : State} (h : MovesWithin (fun r => s.sp ≤ r.sp) m s t)
    (hsp : t.sp = s.sp) (ht : LevelEndsBefore n t) (hk : m + n ≤ k) : LevelEndsBefore k s := by
  obtain ⟨j, u, hj, hmoves, hu⟩ := ht
  rw [hsp] at hmoves hu
  exact ⟨m + j, u, (Nat.add_lt_add_left hj m).trans_le hk, h.trans hmoves, hu⟩

theorem MovesWithin.keeps_wf {p : State → Prop} {n : Nat} {s t : State} (h : MovesWithin p n s t) (hs : s.WF) :
    t.WF ∧ t.stackDepth = s.stackDepth := by
  refine h.invariant (inv := fun r => r.WF ∧ r.stackDepth = s.stackDepth) (fun a b ⟨ha, hdepth⟩ ht => ?_) ⟨hs, rfl⟩
  have ⟨hb, hdepth'⟩ := step_keeps_wf ha ht.2
  exact ⟨hb, hdepth'.trans hdepth⟩

theorem exists_transition {s : State} (hs : s.WF) (hr : s.run = .running) : ∃ t, Transition s t := by
  obtain ⟨t, ht⟩ := wellFormedStepAnswersNext s hs
  exact ⟨t, hr, ht⟩

/-- Every subroutine called at the level of `s` ends its own level in fewer than `n` moves. -/
def CalleesEndBefore (n : Nat) (s : State) : Prop :=
  ∀ t : State, t.WF → t.run = .running → t.stackDepth = s.stackDepth → t.sp = s.sp + 1 → LevelEndsBefore n t

/-- From `s`, at most `n` moves with SP never below that of `s` lead on to the next word at the same SP. -/
def ResumesWithin (n : Nat) (s : State) : Prop :=
  ∃ m t, m ≤ n ∧ MovesWithin (fun r => s.sp ≤ r.sp) m s t ∧ t.run = .running ∧ t.sp = s.sp ∧ t.pc = s.pc + 2#16

/-- A CALL whose subroutine ends its level either ends the run there or resumes past the CALL, since the RET that ends
the level is the matching one (R126). -/
theorem LevelEndsBefore.past_call {n : Nat} {s t : State} {nnn : Addr12} (hs : s.WF) (h : Transition s t)
    (hw : NextWord s (encode (.call nnn))) (hfree : s.sp < s.stackDepth) (ht : LevelEndsBefore n t) :
    LevelEndsBefore (n + 1) s ∨ ResumesWithin (n + 1) s := by
  obtain ⟨j, u, hj, hmoves, hu⟩ := ht
  obtain ⟨hsp, -⟩ := h.call_pushes hw hfree
  have hle : s.sp ≤ t.sp := hsp ▸ Nat.le_succ _
  have hin : MovesWithin (fun r => s.sp ≤ r.sp) (j + 1) s u :=
    .move (Nat.le_refl _) h (hmoves.mono fun _ => hle.trans)
  rcases hu with hend | ⟨hspu, hret⟩
  · exact .inl ⟨j + 1, u, Nat.succ_lt_succ hj, hin, .inl hend⟩
  · obtain ⟨v, hv⟩ := exists_transition (hin.keeps_wf hs).1 hret.1
    obtain ⟨hpc, hspv, -, hrun⟩ := matchingRetReturnsPastTheCall s t u v nnn j hw hfree h hmoves hspu hret hv
    exact .inr ⟨j + 1 + 1, v, Nat.succ_le_succ hj, hin.trans (.one hv (hspu ▸ hle) hspv.ge), hrun, hspv, hpc⟩

/-- One word of a level: it ends the level, or the run goes on at the next word of the level. -/
theorem levelEndsBefore_or_resumesWithin {n : Nat} {s : State} (hs : s.WF) (hr : s.run = .running)
    (hcallees : CalleesEndBefore n s) :
    LevelEndsBefore (n + 2) s ∨ (s.pc.toNat + 2 ≤ 4096 ∧ ResumesWithin (n + 1) s) := by
  obtain ⟨t, ht⟩ := exists_transition hs hr
  have ⟨hwf, hdepth⟩ := step_keeps_wf hs ht.2
  cases ht.controlMove with
  | ends hrun hsp hlive => exact .inl ⟨1, t, by omega, .one ht (Nat.le_refl _) hsp.ge, .inl hrun⟩
  | ret hw hrun hsp hlen hlive => exact .inl ⟨0, s, by omega, .done (Nat.le_refl _), .inr ⟨rfl, hw⟩⟩
  | add x y hw hrun hpc hsp hlive =>
    exact .inr ⟨hw.pc_add_two_toNat.2, 1, t, by omega, .one ht (Nat.le_refl _) hsp.ge, hrun, hsp, hpc⟩
  | call nnn hw hrun hpc hsp hlive =>
    have ⟨_, _, hspt⟩ := hwf
    have hfree : s.sp < s.stackDepth := by omega
    rcases (hcallees t hwf hrun hdepth hsp).past_call hs ht hw hfree with hend | hresume
    · exact .inl (hend.mono (Nat.le_succ _))
    · exact .inr ⟨hw.pc_add_two_toNat.2, hresume⟩

/-- A level whose pc has at most `k` words before the end of memory ends, in moves that its subroutines' own bound
gives. -/
theorem levelEndsBefore_of_callees {n k : Nat} {s : State} (hs : s.WF) (hr : s.run = .running)
    (hcallees : CalleesEndBefore n s) (hk : 4095 ≤ s.pc.toNat + 2 * k) :
    LevelEndsBefore ((k + 1) * (n + 1) + 1) s := by
  induction k generalizing s with
  | zero =>
    rcases levelEndsBefore_or_resumesWithin hs hr hcallees with hend | ⟨hpc, -⟩
    · exact hend.mono (by omega)
    · omega
  | succ k ih =>
    rcases levelEndsBefore_or_resumesWithin hs hr hcallees with hend | ⟨hpc, m, t, hm, hmoves, hrun, hsp, hadv⟩
    · exact hend.mono (by rw [Nat.add_mul]; omega)
    · have ⟨hwf, hdepth⟩ := hmoves.keeps_wf hs
      have hpct : t.pc.toNat = s.pc.toNat + 2 := by rw [hadv, BitVec.toNat_add, BitVec.toNat_ofNat]; omega
      have hcallees' : CalleesEndBefore n t := by rwa [CalleesEndBefore, hdepth, hsp]
      have htail := ih hwf hrun hcallees' (by omega)
      exact htail.prepend hmoves hsp (by rw [Nat.add_mul (k + 1)]; omega)

/-- A level with `d` free slots below it ends within R113's bound: 2048 words from any pc, each with a subroutine of one
free slot fewer. -/
theorem levelEndsBefore_pow {d : Nat} {s : State} (hs : s.WF) (hr : s.run = .running)
    (hd : s.sp + d = s.stackDepth) : LevelEndsBefore (2050 ^ (d + 1)) s := by
  have hk : 4095 ≤ s.pc.toNat + 2 * 2048 := by omega
  induction d generalizing s with
  | zero =>
    have hnone : CalleesEndBefore 0 s := fun t ⟨_, _, hsp⟩ _ hdepth hspt => by omega
    exact levelEndsBefore_of_callees hs hr hnone hk
  | succ d ih =>
    have hcallees : CalleesEndBefore (2050 ^ (d + 1)) s := fun t ht hrt hdepth hspt =>
      ih ht hrt (by omega) (by omega)
    have hpos : 0 < 2050 ^ d := Nat.pow_pos (by decide)
    exact (levelEndsBefore_of_callees hs hr hcallees hk).mono (by omega)

/-- A RET on an empty stack moves to the underflow fault (spec/60_exceptions.md R203). -/
theorem transition_ret_of_empty {s : State} (hw : NextWord s (encode .ret)) (h : s.sp = 0) :
    Transition s (raiseFault .stackUnderflow (advance s)) :=
  transition_of_exec rfl hw (exec_ret_of_empty (s := advance s) h)

/-- Settles O23: the level of the empty stack ends within the bound, and a RET at that level ends the run. -/
theorem everyRunEnds : Obligations.EveryRunEnds := by
  intro s hs hr h0
  obtain ⟨m, t, hm, hmoves, hend⟩ := levelEndsBefore_pow hs hr (by rw [h0, Nat.zero_add])
  have hrun : Moves m s t := hmoves.mono fun _ _ => trivial
  rcases hend with hend | ⟨hsp, hret⟩
  · exact ⟨m, t, hm.le, hrun, hend⟩
  · exact ⟨m + 1, _, hm, hrun.trans (Moves.one (transition_ret_of_empty hret (hsp.trans h0))), by simp⟩

/-- Settles O24: the terminal state that O23 gives is not Faulted, so it is Halted. -/
theorem safeRunsHalt : Obligations.SafeRunsHalt := by
  intro s hs hr h0 hsafe
  obtain ⟨n, t, -, hmoves, hend⟩ := everyRunEnds s hs hr h0
  have hreach : Reaches s t := ⟨n, hmoves⟩
  cases hrun : t.run with
  | running => exact absurd hrun hend
  | halted => exact ⟨t, hreach, hrun⟩
  | faulted r => exact absurd hrun (hsafe t hreach r)

end Sys2Proof.Machine

namespace Sys2Proof

/-! ## The word from its nibbles (spec/30_encoding.md R74) -/

/-- A number below `2 ^ k` fits into the zeros of a multiple of `2 ^ k`. -/
theorem or_toNat_of_multiple {a b : Word} {q k : Nat} (ha : a.toNat = q * 2 ^ k) (hb : b.toNat < 2 ^ k) :
    (a ||| b).toNat = q * 2 ^ k + b.toNat := by
  rw [BitVec.toNat_or, ha, Nat.mul_comm, Nat.two_pow_add_eq_or_of_lt hb]

/-- A nibble moved up by `k` bits within the word. -/
theorem setWidth_shiftLeft_toNat (n : Nibble) {k : Nat} (hk : k ≤ 12) :
    (n.setWidth 16 <<< k).toNat = n.toNat * 2 ^ k := by
  have hlt : n.toNat * 2 ^ k < 2 ^ 16 :=
    (Nat.mul_lt_mul_of_lt_of_le n.isLt (Nat.pow_le_pow_right (by decide) hk) (by simp)).trans_eq (by decide)
  rw [BitVec.toNat_shiftLeft, BitVec.toNat_setWidth_of_le (by decide), Nat.shiftLeft_eq, Nat.mod_eq_of_lt hlt]

/-- `reassemble` puts each nibble at its own place value. -/
theorem reassemble_toNat (f : Fields) :
    (reassemble f).toNat = f.c.toNat * 4096 + f.x.toNat * 256 + f.y.toNat * 16 + f.d.toNat := by
  have hx := f.x.isLt
  have hy := f.y.isLt
  have hd := f.d.isLt
  have hcv := setWidth_shiftLeft_toNat f.c (k := 12) (by decide)
  have hxv := setWidth_shiftLeft_toNat f.x (k := 8) (by decide)
  have hyv := setWidth_shiftLeft_toNat f.y (k := 4) (by decide)
  have hdv : (f.d.setWidth 16).toNat = f.d.toNat := BitVec.toNat_setWidth_of_le (by decide)
  have hcx := or_toNat_of_multiple (b := f.x.setWidth 16 <<< 8) hcv (by omega)
  have hcxy := or_toNat_of_multiple (b := f.y.setWidth 16 <<< 4) (q := f.c.toNat * 16 + f.x.toNat) (k := 8)
    (hcx.trans (by omega)) (by omega)
  have hcxyd := or_toNat_of_multiple (b := f.d.setWidth 16) (q := f.c.toNat * 256 + f.x.toNat * 16 + f.y.toNat)
    (k := 4) (hcxy.trans (by omega)) (by omega)
  rw [reassemble, hcxyd, hdv]
  omega

/-- Settles O2: the nibbles have the word's own digits, and `nnn` is its lower three. -/
theorem nibblesReassembleToTheWord : Obligations.NibblesReassembleToTheWord := by
  intro v
  have hv := v.isLt
  refine ⟨?_, ?_⟩
  · rw [← BitVec.toNat_inj, reassemble_toNat]
    exact ((fieldsOf_nibbles_iff v _ _ _ _).1 ⟨rfl, rfl, rfl, rfl⟩).symm
  · rw [fieldsOf_nnn_toNat, fieldsOf_x_toNat, fieldsOf_y_toNat, fieldsOf_d_toNat]
    omega

/-! ## The select signals (R78, R79) -/

/-- Of four signals no two of which are 1 together, and the negation of all, exactly one is 1. -/
theorem count_true_of_exclusive : ∀ a b c d : Bool, (a → !b) → (a → !c) → (a → !d) → (b → !c) → (b → !d) →
    (c → !d) → [a, b, c, d, !(a || b || c || d)].count true = 1 := by decide

/-- Settles O3: the low nibble tells HALT from RET, and the class nibble tells every other two apart. -/
theorem exactlyOneSelectSignal : Obligations.ExactlyOneSelectSignal := by
  intro f
  refine count_true_of_exclusive _ _ _ _ ?_ ?_ ?_ ?_ ?_ ?_ <;> simp +contextual [select]

/-! ## How many words no row matches (R84) -/

/-- The words of an unimplemented instruction are those that match no row. -/
theorem decodeWord_eq_unimplemented_iff (w raw : Word) :
    decodeWord w = .unimplemented raw ↔ raw = w ∧ matchesNoRow w = true := by
  refine ⟨fun h => ?_, fun ⟨hraw, hnone⟩ => ?_⟩
  · have hwf := decodeWord_wellFormed w
    obtain rfl : w = raw := by rw [← encode_decodeWord w, h, encode]
    rw [h] at hwf
    exact ⟨rfl, hwf⟩
  · exact (decodeWord_eq_iff_eq_encode w (hraw ▸ hnone)).2 hraw.symm

/-- The instructions that are not the catch-all: HALT and RET, a CALL for each target, an ADD for each two registers. -/
def listedInstr : Bool ⊕ Addr12 ⊕ RegIndex × RegIndex → Instr
  | .inl false => .halt
  | .inl true => .ret
  | .inr (.inl nnn) => .call nnn
  | .inr (.inr (x, y)) => .add x y

theorem listedInstr_wellFormed (k) : (listedInstr k).wellFormed = true := by
  rcases k with (_ | _) | nnn | ⟨x, y⟩ <;> rfl

theorem listedInstr_injective : Function.Injective listedInstr := by
  rintro ((_ | _) | nnn | ⟨x, y⟩) ((_ | _) | nnn' | ⟨x', y'⟩) h <;> simp_all [listedInstr]

theorem exists_listedInstr_iff (i : Instr) : (∃ k, listedInstr k = i) ↔ ∀ raw, i ≠ .unimplemented raw := by
  refine ⟨?_, fun h => ?_⟩
  · rintro ⟨(_ | _) | nnn | ⟨x, y⟩, rfl⟩ raw <;> simp [listedInstr]
  · cases i with
    | halt => exact ⟨.inl false, rfl⟩
    | ret => exact ⟨.inl true, rfl⟩
    | call nnn => exact ⟨.inr (.inl nnn), rfl⟩
    | add x y => exact ⟨.inr (.inr (x, y)), rfl⟩
    | unimplemented raw => exact absurd rfl (h raw)

theorem encode_listedInstr_injective : Function.Injective fun k => encode (listedInstr k) := by
  intro k k' h
  have hdecode := congrArg decodeWord h
  simp only [decodeWord_encode (listedInstr_wellFormed _)] at hdecode
  exact listedInstr_injective hdecode

/-- The words of the listed instructions are the words the catch-all leaves. -/
theorem exists_encode_listedInstr_iff (w : Word) :
    (∃ k, encode (listedInstr k) = w) ↔ decodeWord w ≠ .unimplemented w := by
  have hlisted : (∃ k, encode (listedInstr k) = w) ↔ ∃ k, listedInstr k = decodeWord w := by
    simp only [eq_comm, decodeWord_eq_iff_eq_encode w (listedInstr_wellFormed _)]
  rw [hlisted, exists_listedInstr_iff]
  refine ⟨fun h => h w, fun h raw hraw => h ?_⟩
  obtain ⟨rfl, -⟩ := (decodeWord_eq_unimplemented_iff w raw).1 hraw
  exact hraw

theorem card_bitVec (n : Nat) : Fintype.card (BitVec n) = 2 ^ n :=
  (Fintype.card_congr BitVec.equivFin.toEquiv).trans (Fintype.card_fin _)

theorem card_word : Fintype.card Word = 65536 := (card_bitVec 16).trans (by norm_num)

theorem card_listed : Fintype.card (Bool ⊕ Addr12 ⊕ RegIndex × RegIndex) = 4354 := by
  rw [Fintype.card_sum, Fintype.card_bool, Fintype.card_sum, card_bitVec, Fintype.card_prod, Fintype.card_fin]
  norm_num

/-- Where an injection's values are exactly the elements without a property, the others are the rest. Stated for every
type, so that no proof counts the 65536 words one by one. -/
theorem card_filter_add_card_of_injective {α β : Type} [Fintype α] [Fintype β] [DecidableEq α] {p : α → Prop}
    [DecidablePred p] {f : β → α} (hf : Function.Injective f) (h : ∀ a, (∃ b, f b = a) ↔ ¬ p a) :
    (Finset.univ.filter p).card + Fintype.card β = Fintype.card α := by
  have himage : Finset.univ.image f = Finset.univ.filter fun a => ¬ p a := by
    ext a
    simp [h]
  rw [← Finset.card_univ (α := β), ← Finset.card_image_of_injective _ hf, himage,
    Finset.card_filter_add_card_filter_not, Finset.card_univ]

/-- Settles O5: the count is what is left of the 65536 words after those of HALT, RET, 4096 CALLs and 256 ADDs. -/
theorem unimplementedWordsAreTheRest : Obligations.UnimplementedWordsAreTheRest := by
  refine ⟨decodeWord_eq_unimplemented_iff, ?_⟩
  have hsplit := card_filter_add_card_of_injective encode_listedInstr_injective exists_encode_listedInstr_iff
  rw [card_listed, card_word] at hsplit
  exact Nat.add_right_cancel hsplit

/-! ## Two bytes and their instruction (R70, R73, R86) -/

theorem encodeBytes_decodeWord (hi lo : Byte) : encodeBytes (decodeWord (wordOfBytes hi lo)) = [hi, lo] := by
  rw [encodeBytes, encode_decodeWord, Machine.highByte_wordOfBytes, Machine.lowByte_wordOfBytes]

/-- Settles O7: the instruction is what the word of the two bytes decodes to, and it encodes to that word. -/
theorem encodeOfDecodeIsTheWord : Obligations.EncodeOfDecodeIsTheWord := by
  refine ⟨fun hi lo rest => ⟨decodeWord (wordOfBytes hi lo), rfl, decodeWord_wellFormed _,
    encodeBytes_decodeWord hi lo⟩, fun bs hshort => ?_⟩
  match bs, hshort with
  | [], _ => rfl
  | [_], _ => rfl
  | _ :: _ :: _, hlong => exact absurd hlong (by simp)

/-- Settles O8: six closed words, each by running the decoder. -/
theorem specWordsDecode : Obligations.SpecWordsDecode := by
  refine ⟨?_, ?_, ?_, ?_, ?_, ?_⟩ <;> decide

end Sys2Proof

namespace Sys2Proof.Machine

/-! ## Disassembly and assembly (spec/30_encoding.md R87, R89) -/

/-- A CALL's own target is in range, and assembles to the CALL. -/
theorem asmCall_addr (labels : List (String × Nat)) (nnn : Addr12) :
    asmCall labels (.addr nnn.toNat) = some (.call nnn) := by
  have hin : nnn.toNat < 4096 := nnn.isLt
  rw [asmCall, resolve]
  simp [hin]

/-- The statement a word is disassembled to assembles to the bytes of the word's instruction. -/
theorem asmBytes_disassemble (labels : List (String × Nat)) (w : Word) :
    asmBytes labels (disassemble w) = some (encodeBytes (decodeWord w)) := by
  rw [disassemble]
  cases decodeWord w with
  | halt => rfl
  | ret => rfl
  | call nnn => rw [asmBytes, asmCall_addr, Option.map_some]
  | add x y => rfl
  | unimplemented raw => rfl

/-- Settles O58: the instruction a word decodes to encodes to the word. -/
theorem assemblyOfDisassemblyIsTheWord : Obligations.AssemblyOfDisassemblyIsTheWord := by
  intro w
  rw [asmBytes_disassemble, encodeBytes, encode_decodeWord]

end Sys2Proof.Machine

namespace Sys2Proof.Machine

/-! ## One step, case by case (spec/40_execution_cycle.md section 1) -/

/-- Settles O9: the two bytes are the word that the fetch gives. -/
theorem stepRunsTheDecodedInstruction : Obligations.StepRunsTheDecodedInstruction := by
  intro s i rest hr hin hdecode
  rw [decodeBytes_cons_cons] at hdecode
  obtain ⟨rfl, -⟩ := Prod.mk.inj (Except.ok.inj hdecode)
  exact step_running_ok hr (fetch_ok hin)

/-- Settles O12: the fetch raises IndexOutOfRange with the pc, before the advance. -/
theorem fetchOutsideMemoryFaultsInPlace : Obligations.FetchOutsideMemoryFaultsInPlace :=
  fun _ hr hout => ⟨step_running_raise hr (fetch_raise (Nat.not_lt.2 hout)), rfl⟩

/-- Settles O15: a terminal state answers itself. -/
theorem terminalStatesIgnoreStepRequests : Obligations.TerminalStatesIgnoreStepRequests := by
  refine fun s hr => ⟨step_terminal hr, fun t ht => ?_, not_transition_of_not_running hr⟩
  rw [step_terminal hr] at ht
  rw [Host.Outcome.next.inj ht]

/-- An address no cell lists reads as the reset contents (spec/20_memory.md R58). -/
theorem Memory.byteAt_of_not_listed {m : Memory} {a : Nat} (h : ∀ p ∈ m, p.1 ≠ a) :
    Memory.byteAt m a = Config.resetByte := by
  induction m with
  | nil => rfl
  | cons p m ih =>
    obtain ⟨hp, hm⟩ := List.forall_mem_cons.1 h
    rw [Memory.byteAt, if_neg hp.symm, ih hm]

/-- Settles O25: two unlisted bytes are HALT's word. -/
theorem unloadedMemoryHalts : Obligations.UnloadedMemoryHalts := by
  intro s hr hin hfree
  have hw : NextWord s (encode .halt) := ⟨hr, hin, Memory.byteAt_of_not_listed fun p hp => (hfree p hp).1,
    Memory.byteAt_of_not_listed fun p hp => (hfree p hp).2⟩
  exact (step_of_nextWord_encode rfl hw).trans (exec_halt _)

/-- Settles O13: the word at the pc fixes the move, and each row reads the pc off the move's own equation; a RET with a
live entry answers nothing but that entry. -/
theorem nextPcFollowsTheBranchTable : Obligations.NextPcFollowsTheBranchTable := by
  intro s t hr hstep
  have h : Transition s t := ⟨hr, hstep⟩
  refine ⟨fun hout => ?fetch, fun hw => ?halt, fun hw hpos => ?ret, fun hw hempty => ?underflow,
    fun nnn hw hfree => ?call, fun nnn hw hfull => ?overflow, fun x y hw => ?add, fun w hnone hw => ?unimplemented⟩
  case fetch => rw [h.deterministic (transition_fetch_fault hr (Nat.not_lt.2 hout)), raiseFault_pc]
  case halt => rw [h.deterministic (transition_of_exec (i := .halt) rfl hw (exec_halt _)), State.withRun_pc, advance_pc]
  case ret =>
    have he : execRet (advance s) = .next t := (step_of_nextWord_encode (i := .ret) rfl hw).symm.trans hstep
    rcases execRet_next he with ⟨hempty, -⟩ | ⟨a, -, ha, rfl⟩
    · exact absurd hempty (Nat.ne_of_gt hpos)
    · exact ha
  case underflow => rw [h.deterministic (transition_ret_of_empty hw hempty), raiseFault_pc, advance_pc]
  case call =>
    rw [h.deterministic (transition_of_exec rfl hw (exec_call_of_free (s := advance s) nnn hfree)), State.withPc_pc,
      targetOf_toNat]
  case overflow =>
    rw [h.deterministic (transition_of_exec rfl hw (exec_call_of_full (s := advance s) nnn hfull)), raiseFault_pc,
      advance_pc]
  case add => rw [h.deterministic (transition_of_exec rfl hw (exec_add x y _)), addWithFlag_pc, advance_pc]
  case unimplemented =>
    rw [h.deterministic (transition_of_exec (i := .unimplemented w) hnone hw (exec_unimplemented w _)), raiseFault_pc,
      advance_pc]

/-! ## The state after reset (spec/70_reset_and_hazards.md R250) -/

/-- Settles O18: memory is empty and SP is 0, and the default stack has 16 entries. -/
theorem resetStatesAreWellFormed : Obligations.ResetStatesAreWellFormed :=
  ⟨State.resetWith_wf _ (by decide), fun entry _ => State.resetWith_wf entry⟩

theorem State.resetWith_reg (entry : Word) (depth : Nat) (i : RegIndex) :
    (State.resetWith entry depth).reg i = Config.resetReg :=
  Vector.getElem_replicate i.isLt

theorem statusWord_running : statusWord .running = 0x0000#16 := by decide

/-- Settles O20: field by field, from what reset writes. -/
theorem resetValues : Obligations.ResetValues := by
  refine ⟨fun entry depth => ⟨fun a => rfl, State.resetWith_reg entry depth, fun k hk => ?_,
    State.resetWith_stackDepth entry depth, rfl, rfl, rfl, statusWord_running, rfl⟩, rfl⟩
  rw [State.resetWith_stack, List.getElem?_replicate, if_pos hk, Config.resetStackEntry]

/-! ## Memory (spec/20_memory.md R55) -/

/-- No instruction stores. -/
theorem exec_mem {i : Instr} {s t : State} (h : exec i s = .next t) : t.mem = s.mem := by
  rcases exec_next h with ⟨-, rfl⟩ | ⟨-, -, rfl⟩ | ⟨-, a, -, -, rfl⟩ | ⟨nnn, -, -, rfl⟩ | ⟨nnn, -, -, rfl⟩ |
    ⟨x, y, -, rfl⟩ | ⟨raw, -, rfl⟩ <;> rfl

theorem step_mem {s t : State} (h : step s = .next t) : t.mem = s.mem := by
  rcases step_next h with ⟨-, rfl⟩ | ⟨-, -, rfl⟩ | ⟨-, -, w, -, he⟩
  · rfl
  · rfl
  · exact exec_mem (s := advance s) he

theorem sameMemory_of_mem_eq {s t : State} (h : t.mem = s.mem) : SameMemory s t :=
  fun a => congrArg (Memory.byteAt · a) h

/-- Settles O50: the memory list itself is kept, and with it every byte. -/
theorem noStepWritesMemory : Obligations.NoStepWritesMemory :=
  ⟨fun _ _ h => ⟨sameMemory_of_mem_eq (step_mem h), step_mem h⟩,
    fun _ _ _ h => ⟨sameMemory_of_mem_eq (exec_mem h), exec_mem h⟩⟩

/-! ## The call stack and control transfer (spec/41_control_transfer.md) -/

/-- Settles O28: the pop reads the entry the push wrote, and overflow is a test on SP. -/
theorem popAfterPushReturnsTheValue : Obligations.PopAfterPushReturnsTheValue := by
  refine ⟨fun a s t h => ?_, fun a b s t hsp hdepth => ?_⟩
  · rcases push_cases a s with ⟨-, hp⟩ | ⟨hfree, hp⟩ | ⟨-, hp⟩
    · simp [hp] at h
    · obtain rfl := OpResult.ok.inj (hp.symm.trans h)
      have hentry : (s.stack.set s.sp a)[s.sp + 1 - 1]? = some a := List.getElem?_set_self hfree
      exact ⟨_, pop_of_entry (s := (s.withStack _).withSp _) (Nat.succ_pos _) hentry, rfl,
        List.take_set_of_le (Nat.le_refl _)⟩
    · simp [hp] at h
  · rw [push_eq_stackOverflow_iff, push_eq_stackOverflow_iff, hsp, hdepth]

/-- Settles O29: HALT writes RUN. -/
theorem haltCompletes : Obligations.HaltCompletes := exec_halt

/-- Settles O31: CALL is the push of the pc it finds, followed by the jump where the push completes. -/
theorem callCompletesOrOverflows : Obligations.CallCompletesOrOverflows :=
  ⟨fun _ nnn hfree => ⟨_, exec_call_of_free nnn hfree, targetOf_toNat nnn, rfl, getElem?_stack_set_sp _ hfree, rfl, rfl,
    rfl⟩, fun _ nnn hfull => exec_call_of_full nnn hfull⟩

/-- Settles O36: there the push is past the stack's last entry, and the pop finds none. -/
theorem impossibleStackPointerStopsTheModel : Obligations.ImpossibleStackPointerStopsTheModel := by
  intro s hout
  have hpush (a) : push a s = .stop .stackPointerOutsideStack := by
    rw [push, if_neg (Nat.ne_of_gt hout), if_neg (Nat.lt_asymm hout)]
  have hpop : pop s = .stop .stackPointerOutsideStack := by
    have hnone : s.stack[s.sp - 1]? = none := List.getElem?_eq_none (Nat.le_sub_one_of_lt hout)
    rw [pop, if_neg (Nat.ne_of_gt (Nat.zero_lt_of_lt hout)), hnone]
  refine ⟨fun nnn => ?_, ?_⟩
  · rw [exec, execCall, hpush, OpResult.map, conclude]
  · rw [exec, execRet, hpop, OpResult.map, conclude]

/-- Everything a step can do to the stack (spec/10_state.md R27). -/
theorem step_stack_cases {s t : State} (h : step s = .next t) :
    (t.stack = s.stack ∧ t.sp = s.sp) ∨
    (∃ nnn, NextWord s (encode (.call nnn)) ∧ s.sp < s.stackDepth ∧ t.stack = s.stack.set s.sp (s.pc + 2#16) ∧
      t.sp = s.sp + 1) ∨
    (NextWord s (encode .ret) ∧ t.stack = s.stack ∧ t.sp + 1 = s.sp) := by
  by_cases hr : s.run = .running
  case neg =>
    obtain rfl := Host.Outcome.next.inj ((step_terminal hr).symm.trans h)
    exact .inl ⟨rfl, rfl⟩
  rcases Transition.cases_instr ⟨hr, h⟩ with ⟨-, rfl⟩ | ⟨i, hw, he⟩
  · exact .inl ⟨rfl, rfl⟩
  rcases exec_next he with ⟨-, rfl⟩ | ⟨-, -, rfl⟩ | ⟨rfl, a, hpos, -, rfl⟩ | ⟨nnn, -, -, rfl⟩ |
    ⟨nnn, rfl, hfree, rfl⟩ | ⟨x, y, -, rfl⟩ | ⟨raw, -, rfl⟩
  · exact .inl ⟨rfl, rfl⟩
  · exact .inl ⟨rfl, rfl⟩
  · exact .inr (.inr ⟨hw, rfl, Nat.succ_pred_eq_of_pos hpos⟩)
  · exact .inl ⟨rfl, rfl⟩
  · exact .inr (.inl ⟨nnn, hw, hfree, rfl, rfl⟩)
  · exact .inl ⟨rfl, rfl⟩
  · exact .inl ⟨rfl, rfl⟩

/-- Settles O34: the stack stays, or is written at SP by a CALL; a RET moves SP alone. -/
theorem onlyCallWritesTheStack : Obligations.OnlyCallWritesTheStack := by
  intro s t h
  rcases step_stack_cases h with ⟨hstack, hsp⟩ | ⟨nnn, hw, hfree, hstack, hsp⟩ | ⟨hw, hstack, hsp⟩
  · exact ⟨congrArg List.length hstack, fun k hk => absurd (by rw [hstack]) hk, fun hne => absurd hsp hne⟩
  · refine ⟨(congrArg List.length hstack).trans List.length_set, fun k hk => ?_, fun _ => .inl ⟨hsp, nnn, hw⟩⟩
    rw [hstack, getElem?_stack_set_sp _ hfree] at hk ⊢
    by_cases hks : k = s.sp
    · exact ⟨hks, hfree, if_pos hks, nnn, hw⟩
    · exact absurd (if_neg hks) hk
  · exact ⟨congrArg List.length hstack, fun k hk => absurd (by rw [hstack]) hk, fun _ => .inr ⟨hsp, hw⟩⟩

/-! ## ADD (spec/42_arithmetic.md R141 to R146) -/

/-- The result register, where it is not the flag's. -/
theorem addWithFlag_dest {x : RegIndex} (y : RegIndex) (s : State) (hx : x ≠ 15) :
    (addWithFlag x y s).reg x = (aluAdd (s.reg x) (s.reg y)).1 := by
  rw [addWithFlag_reg, if_neg (show x ≠ Config.flagIndex from hx), if_pos rfl]

theorem addWithFlag_dest_toNat {x : RegIndex} (y : RegIndex) (s : State) (hx : x ≠ 15) :
    ((addWithFlag x y s).reg x).toNat = ((s.reg x).toNat + (s.reg y).toNat) % 256 := by
  rw [addWithFlag_dest y s hx, aluAdd_sum_toNat]

theorem addWithFlag_vf (x y : RegIndex) (s : State) :
    (addWithFlag x y s).vf = flagByte (aluAdd (s.reg x) (s.reg y)).2 := by
  rw [State.vf, addWithFlag_reg, if_pos rfl]

/-- VF as a number is the true sum's quotient by 256. -/
theorem addWithFlag_vf_toNat (x y : RegIndex) (s : State) :
    (addWithFlag x y s).vf.toNat = ((s.reg x).toNat + (s.reg y).toNat) / 256 := by
  rw [addWithFlag_vf, flagByte, BitVec.toNat_setWidth_of_le (by decide), aluAdd_carry_toNat]

theorem addWithFlag_vf_eq_ite (x y : RegIndex) (s : State) :
    (addWithFlag x y s).vf = if (s.reg x).toNat + (s.reg y).toNat > 255 then 1#8 else 0#8 := by
  have hvf := addWithFlag_vf_toNat x y s
  rw [← BitVec.toNat_inj, hvf]
  split_ifs <;> rw [BitVec.toNat_ofNat] <;> omega

/-- Settles O38: ADD is `addWithFlag`, register by register. -/
theorem addWritesSumAndCarry : Obligations.AddWritesSumAndCarry :=
  fun x y s => ⟨_, exec_add x y s, addWithFlag_dest_toNat y s, addWithFlag_vf_eq_ite x y s,
    fun _ => addWithFlag_reg_other s, rfl, rfl, rfl, rfl, rfl⟩

/-- Settles O39: the sum and the carry where one register is both operand and flag, or both operands. -/
theorem addWhereRegistersCoincide : Obligations.AddWhereRegistersCoincide := by
  refine ⟨fun y s t h => ?toFlag, fun s t h => ?flagToFlag, fun x s t hx h => ?fromFlag, fun x s t hx h => ?double⟩
  all_goals obtain rfl := Host.Outcome.next.inj h
  case toFlag =>
    rw [addWithFlag_vf_eq_ite]
    split_ifs with hcarry
    · exact .inl ⟨rfl, hcarry⟩
    · exact .inr ⟨rfl, Nat.le_of_not_lt hcarry⟩
  case flagToFlag =>
    have htop : s.vf.toNat + s.vf.toNat > 255 ↔ s.vf.toNat ≥ 128 := by omega
    exact (addWithFlag_vf_eq_ite 15 15 s).trans (if_congr htop rfl rfl)
  case fromFlag => exact addWithFlag_dest_toNat 15 s hx
  case double =>
    refine ⟨by rw [addWithFlag_dest_toNat x s hx, Nat.two_mul], BitVec.eq_of_toNat_eq ?_⟩
    rw [addWithFlag_vf_toNat, BitVec.toNat_ushiftRight, Nat.shiftRight_eq_div_pow]
    omega

theorem aluAdd_comm (a b : Byte) : aluAdd a b = aluAdd b a := by
  rw [aluAdd, aluAdd, trueSum, trueSum, BitVec.add_comm]

/-- Settles O40: the sum and the carry are the true sum's remainder and quotient by 256, which do not depend on the
order of the operands. -/
theorem addObeysTheArithmeticLaws : Obligations.AddObeysTheArithmeticLaws := by
  intro x y s t hx hy hxy h
  obtain rfl := Host.Outcome.next.inj h
  have hdest := addWithFlag_dest_toNat y s hx
  have hflag := addWithFlag_vf_toNat x y s
  refine ⟨by omega, fun t' h' => ?swap, fun h0 => ?zeroLeft, fun h0 => ?zeroRight, fun h256 => ?wrap⟩
  case swap =>
    obtain rfl := Host.Outcome.next.inj h'
    have hregx : ((s.withReg x (s.reg y)).withReg y (s.reg x)).reg x = s.reg y := by
      rw [State.withReg_reg_other _ _ hxy, State.withReg_reg_same]
    have hregy : ((s.withReg x (s.reg y)).withReg y (s.reg x)).reg y = s.reg x := State.withReg_reg_same _ _ _
    rw [addWithFlag_dest y _ hx, addWithFlag_dest y s hx, addWithFlag_vf, addWithFlag_vf, hregx, hregy,
      aluAdd_comm (s.reg y)]
    exact ⟨rfl, rfl⟩
  all_goals
    simp only [← BitVec.toNat_inj, BitVec.toNat_ofNat] at *
    omega

/-- Settles O41: a step that is no ADD writes no register, and an ADD's flag is the carry of the advanced state's
operands, which are those before the step. -/
theorem flagIsTheCarryOfTheLastAdd : Obligations.FlagIsTheCarryOfTheLastAdd := by
  refine fun s t h => ⟨fun hnone => ?_, fun x y hw => ?_⟩
  · by_cases hr : s.run = .running
    case neg => rw [Host.Outcome.next.inj ((step_terminal hr).symm.trans h)]
    rcases Transition.cases_instr ⟨hr, h⟩ with ⟨-, rfl⟩ | ⟨i, hw, he⟩
    · rfl
    · have hregs : t.regs = s.regs :=
        exec_keeps_regs (s := advance s) (fun x y hi => hnone x y (hi ▸ hw)) he
      rw [State.vf, State.vf, State.reg, State.reg, hregs]
  · obtain rfl := Host.Outcome.next.inj (((step_of_nextWord_encode rfl hw).trans (exec_add x y _)).symm.trans h)
    exact addWithFlag_vf_eq_ite x y (advance s)

end Sys2Proof.Machine

namespace Sys2Proof.Machine

/-! ## The status word and FAULT_INFO (spec/10_state.md R31) -/

/-- The two fields of the status word do not overlap. -/
theorem statusWord_toNat (run : RunState) :
    (statusWord run).toNat = (faultCode run).toNat * 2 ^ 2 + (runStateCode run).toNat := by
  have hcode := (faultCode run).isLt
  have hstate := (runStateCode run).isLt
  have hlow : ((runStateCode run).setWidth 16).toNat = (runStateCode run).toNat :=
    BitVec.toNat_setWidth_of_le (by decide)
  have hhigh : ((faultCode run).setWidth 16 <<< 2).toNat = (faultCode run).toNat * 2 ^ 2 := by
    rw [BitVec.toNat_shiftLeft, BitVec.toNat_setWidth_of_le (by decide), Nat.shiftLeft_eq, Nat.mod_eq_of_lt (by omega)]
  rw [statusWord, or_toNat_of_multiple hhigh (by omega), hlow]

/-- STATUS[1:0], STATUS[4:2] and STATUS[15:5] (R31). -/
theorem statusWord_fields (run : RunState) :
    (statusWord run).toNat % 4 = (runStateCode run).toNat ∧
    (statusWord run).toNat / 4 % 8 = (faultCode run).toNat ∧ (statusWord run).toNat / 32 = 0 := by
  have hcode := (faultCode run).isLt
  have hstate := (runStateCode run).isLt
  have hword := statusWord_toNat run
  omega

/-- Settles O47: the fields are the two codes, and the codes are those of R31. -/
theorem statusWordShowsTheRunState : Obligations.StatusWordShowsTheRunState := by
  refine ⟨fun run => ?_, fun pc raw => ⟨rfl, rfl, rfl, rfl, rfl, rfl⟩⟩
  obtain ⟨hstate, hcode, hreserved⟩ := statusWord_fields run
  refine ⟨hstate.trans ?_, hcode.trans ?_, hreserved⟩
  · cases run <;> rfl
  · rcases run with _ | _ | (_ | _ | _ | _) <;> rfl

/-- The run state that RUN_STATE, FAULT_CODE and FAULT_INFO show. -/
def runStateOfOutputs (state : BitVec 2) (code : BitVec 3) (info : Word) : RunState :=
  if state = 0#2 then .running
  else if state = 1#2 then .halted
  else if code = 1#3 then .faulted (.indexOutOfRange info)
  else if code = 2#3 then .faulted .stackOverflow
  else if code = 3#3 then .faulted .stackUnderflow
  else .faulted (.unimplementedOpcode info)

theorem runStateOfOutputs_eq (r : RunState) : runStateOfOutputs (runStateCode r) (faultCode r) (faultInfo r) = r := by
  rcases r with _ | _ | (_ | _ | _ | _) <;> rfl

/-- Settles O48: equal status words have equal fields, and the run state can be read back from the fields. -/
theorem statusAndFaultInfoDetermineTheRunState : Obligations.StatusAndFaultInfoDetermineTheRunState := by
  intro r r' hstatus hinfo
  obtain ⟨hstate, hcode, -⟩ := statusWord_fields r
  obtain ⟨hstate', hcode', -⟩ := statusWord_fields r'
  rw [hstatus, hstate', BitVec.toNat_inj] at hstate
  rw [hstatus, hcode', BitVec.toNat_inj] at hcode
  rw [← runStateOfOutputs_eq r, ← hstate, ← hcode, hinfo, runStateOfOutputs_eq]

/-- Settles O49: a number up to the depth has no more bits than the depth. -/
theorem stackPointerFitsItsPort : Obligations.StackPointerFitsItsPort := by
  refine ⟨fun s hs => ?_, by decide⟩
  obtain ⟨-, -, hsp⟩ := hs
  rw [spOut, BitVec.toNat_ofNat, spWidth, Nat.mod_eq_of_lt (hsp.trans_lt Nat.lt_log2_self)]

/-! ## The host's ports, one equation per way a request is answered (spec/10_state.md R36 to R39) -/

theorem apply_rst (b : Block) (entry : Word) :
    b.apply (.rst entry) = .next { core := State.resetWith entry b.core.stackDepth, phase := .load } := rfl

theorem apply_load {b : Block} {addr : Word} (data : Byte) (hphase : b.phase = .load) (hin : inMemory addr.toNat) :
    b.apply (.load addr data) =
      .next { b with core := b.core.withMem (Memory.write b.core.mem addr.toNat data) } := by
  rw [Block.apply, portLoad, hphase]
  exact if_pos hin

theorem apply_load_out {b : Block} {addr : Word} (data : Byte) (hphase : b.phase = .load)
    (hout : ¬ inMemory addr.toNat) : b.apply (.load addr data) = .refused .hostLoadOutOfRange := by
  rw [Block.apply, portLoad, hphase]
  exact if_neg hout

theorem apply_load_late {b : Block} (addr : Word) (data : Byte) (hphase : b.phase = .run) :
    b.apply (.load addr data) = .refused .hostWriteAfterFirstStep := by
  rw [Block.apply, portLoad, hphase]

theorem apply_seed {b : Block} (idx : RegIndex) (data : Byte) (hphase : b.phase = .load) :
    b.apply (.seed idx data) = .next { b with core := b.core.withReg idx data } := by
  rw [Block.apply, portSeed, hphase]

theorem apply_seed_late {b : Block} (idx : RegIndex) (data : Byte) (hphase : b.phase = .run) :
    b.apply (.seed idx data) = .refused .hostWriteAfterFirstStep := by
  rw [Block.apply, portSeed, hphase]

theorem apply_step_of_transition {b : Block} {t : State} (h : Transition b.core t) :
    b.apply .step = .next { core := t, phase := .run } := by
  have ⟨hr, hstep⟩ := h
  rw [Block.apply, portStep, hr, hstep]

theorem apply_step_of_ended {b : Block} (hr : b.core.run ≠ .running) : b.apply .step = .next b := by
  rw [Block.apply, portStep]
  split
  · contradiction
  · rfl
  · rfl

theorem phase_eq_run {p : Phase} (h : p ≠ .load) : p = .run := by
  cases p with
  | load => contradiction
  | run => rfl

/-- Everything a request can do when it gives a next block. -/
theorem apply_next {b b' : Block} {e : HostEvent} (h : b.apply e = .next b') :
    (∃ entry, e = .rst entry ∧ b' = { core := State.resetWith entry b.core.stackDepth, phase := .load }) ∨
    (∃ addr data, e = .load addr data ∧ b.phase = .load ∧ inMemory addr.toNat ∧
      b' = { b with core := b.core.withMem (Memory.write b.core.mem addr.toNat data) }) ∨
    (∃ idx data, e = .seed idx data ∧ b.phase = .load ∧ b' = { b with core := b.core.withReg idx data }) ∨
    (e = .step ∧ b.core.run ≠ .running ∧ b' = b) ∨
    (∃ t, e = .step ∧ Transition b.core t ∧ b' = { core := t, phase := .run }) := by
  cases e with
  | rst entry => exact .inl ⟨entry, rfl, (Host.Outcome.next.inj h).symm⟩
  | load addr data =>
    by_cases hphase : b.phase = .load
    · by_cases hin : inMemory addr.toNat
      · rw [apply_load data hphase hin] at h
        exact .inr (.inl ⟨addr, data, rfl, hphase, hin, (Host.Outcome.next.inj h).symm⟩)
      · simp [apply_load_out data hphase hin] at h
    · simp [apply_load_late addr data (phase_eq_run hphase)] at h
  | seed idx data =>
    by_cases hphase : b.phase = .load
    · rw [apply_seed idx data hphase] at h
      exact .inr (.inr (.inl ⟨idx, data, rfl, hphase, (Host.Outcome.next.inj h).symm⟩))
    · simp [apply_seed_late idx data (phase_eq_run hphase)] at h
  | step =>
    by_cases hr : b.core.run = .running
    · cases hstep : step b.core with
      | next t =>
        rw [apply_step_of_transition ⟨hr, hstep⟩] at h
        exact .inr (.inr (.inr (.inr ⟨t, rfl, ⟨hr, hstep⟩, (Host.Outcome.next.inj h).symm⟩)))
      | fault f => simp [Block.apply, portStep, hr, hstep] at h
      | refused r => simp [Block.apply, portStep, hr, hstep] at h
    · rw [apply_step_of_ended hr] at h
      exact .inr (.inr (.inr (.inl ⟨rfl, hr, (Host.Outcome.next.inj h).symm⟩)))

/-- What every admitted request keeps, a list of admitted requests keeps. -/
theorem applyAll_invariant {ok : HostEvent → Prop} {inv : Block → Prop}
    (hstep : ∀ e b b', ok e → inv b → b.apply e = .next b' → inv b') {es : List HostEvent} {b b' : Block}
    (hok : ∀ e ∈ es, ok e) (hb : inv b) (h : b.applyAll es = .next b') : inv b' := by
  induction es generalizing b with
  | nil => exact Host.Outcome.next.inj h ▸ hb
  | cons e es ih =>
    obtain ⟨hok_e, hok_es⟩ := List.forall_mem_cons.1 hok
    rw [Block.applyAll] at h
    split at h
    · next b₁ he => exact ih hok_es (hstep e b b₁ hok_e hb he) h
    · cases h
    · cases h

/-- Settles O51: the written memory by the laws of `Memory.write`, the refusals by the port's own tests. -/
theorem hostLoadStoresOneByte : Obligations.HostLoadStoresOneByte := by
  intro b addr data hm
  refine ⟨fun hphase hin => ⟨_, apply_load data hphase hin, hphase, Memory.wf_write hm hin data, ?_,
    fun addr' hne => ?_, rfl, rfl, rfl, rfl, rfl⟩,
    fun hphase hout => apply_load_out data hphase (Nat.not_lt.2 hout), apply_load_late addr data⟩
  · rw [memReadback, State.withMem_mem, Memory.byteAt_write hm, if_pos rfl]
    exact if_pos hin
  · have hne' : addr'.toNat ≠ addr.toNat := fun heq => hne (BitVec.eq_of_toNat_eq heq)
    rw [memReadback, memReadback, State.withMem_mem, Memory.byteAt_write hm, if_neg hne']

/-- Settles O52: the seed is one register write. -/
theorem hostSeedWritesOneRegister : Obligations.HostSeedWritesOneRegister :=
  fun _ idx data => ⟨fun hphase => ⟨_, apply_seed idx data hphase, hphase, State.withReg_reg_same _ _ _,
    fun _ => State.withReg_reg_other _ _, rfl, rfl, rfl, rfl, rfl⟩, apply_seed_late idx data⟩

/-- Settles O53: reset asks nothing of the block but its stack's size. -/
theorem resetWorksInAnyState : Obligations.ResetWorksInAnyState := apply_rst

/-- Settles O54: the request is one move, or none where there is none. -/
theorem stepRequestPerformsOneStep : Obligations.StepRequestPerformsOneStep :=
  fun _ => ⟨fun _ => apply_step_of_transition, apply_step_of_ended⟩

/-- Settles O55: a load or a seed does not touch RUN, and a step request in a terminal state does nothing. -/
theorem onlyResetLeavesATerminalState : Obligations.OnlyResetLeavesATerminalState := by
  intro es b b' hended hok h
  refine applyAll_invariant (ok := fun e => ∀ entry, e ≠ .rst entry) (inv := fun c => c.core.run = b.core.run)
    (fun e c c' hrst hrun hc => ?_) hok rfl h
  rcases apply_next hc with ⟨entry, rfl, -⟩ | ⟨addr, data, -, -, -, rfl⟩ | ⟨idx, data, -, -, rfl⟩ | ⟨-, -, rfl⟩ |
    ⟨t, -, ⟨hr, -⟩, -⟩
  · exact absurd rfl (hrst entry)
  · exact hrun
  · exact hrun
  · exact hrun
  · exact absurd (hrun.symm.trans hr) hended

/-- Settles O56: loads and seeds are refused in the run phase, and no step writes memory. -/
theorem memoryIsTheLoadedImageThroughoutARun : Obligations.MemoryIsTheLoadedImageThroughoutARun := by
  intro es b b' hphase hok h
  refine applyAll_invariant (ok := fun e => ∀ entry, e ≠ .rst entry)
    (inv := fun c => c.core.mem = b.core.mem ∧ c.phase = .run) (fun e c c' hrst ⟨hmem, hrun⟩ hc => ?_) hok
    ⟨rfl, hphase⟩ h
  rcases apply_next hc with ⟨entry, rfl, -⟩ | ⟨addr, data, -, hload, -⟩ | ⟨idx, data, -, hload, -⟩ | ⟨-, -, rfl⟩ |
    ⟨t, -, ⟨-, hstep⟩, rfl⟩
  · exact absurd rfl (hrst entry)
  · simp [hrun] at hload
  · simp [hrun] at hload
  · exact ⟨hmem, hrun⟩
  · exact ⟨(step_mem hstep).trans hmem, rfl⟩

/-- A block being prepared after a reset: the reset state with some canonical memory image and some registers. -/
def Preparing (entry : Word) (depth : Nat) (b : Block) : Prop :=
  b.phase = .load ∧ ∃ m v, Memory.wf m ∧ b.core = ((State.resetWith entry depth).withMem m).withRegs v

/-- Settles O57: a reset block is being prepared, and a load or a seed keeps it so. -/
theorem loadingPreparesARun : Obligations.LoadingPreparesARun := by
  intro es b b' entry hdepth hok h
  have hreset : Preparing entry b.core.stackDepth
      { core := State.resetWith entry b.core.stackDepth, phase := .load } := ⟨rfl, [], _, Memory.wf_nil, rfl⟩
  have hkeep (e) (c c' : Block) (he : e ≠ .step ∧ ∀ entry', e ≠ .rst entry')
      (hc : Preparing entry b.core.stackDepth c) (hc' : c.apply e = .next c') :
      Preparing entry b.core.stackDepth c' := by
    obtain ⟨hphase, m, v, hm, hcore⟩ := hc
    rcases apply_next hc' with ⟨entry', rfl, -⟩ | ⟨addr, data, -, -, hin, rfl⟩ | ⟨idx, data, -, -, rfl⟩ |
      ⟨rfl, -⟩ | ⟨t, rfl, -⟩
    · exact absurd rfl (he.2 entry')
    · rw [hcore]
      exact ⟨hphase, _, v, Memory.wf_write hm hin data, rfl⟩
    · rw [hcore]
      exact ⟨hphase, m, _, hm, rfl⟩
    · exact absurd rfl he.1
    · exact absurd rfl he.1
  obtain ⟨hphase, m, v, hm, hcore⟩ := applyAll_invariant hkeep hok hreset h
  exact ⟨⟨entry, _, m, v, hdepth, hm, hcore⟩, by rw [hcore]; rfl, hphase⟩

/-! ## `MemRead` of any length (spec/20_memory.md R52, R53) -/

theorem length_bytesFrom (m : Memory) (a n : Nat) : (bytesFrom m a n).length = n := by
  induction n generalizing a with
  | zero => rfl
  | succ n ih => rw [bytesFrom, List.length_cons, ih]

theorem getElem?_bytesFrom (m : Memory) (a : Nat) {n k : Nat} (hk : k < n) :
    (bytesFrom m a n)[k]? = some (Memory.byteAt m (a + k)) := by
  induction n generalizing a k with
  | zero => omega
  | succ n ih =>
    rw [bytesFrom]
    cases k with
    | zero => rfl
    | succ k => rw [List.getElem?_cons_succ, ih (a + 1) (Nat.lt_of_succ_lt_succ hk), Nat.add_right_comm, Nat.add_assoc]

/-- What is accumulated so far stands above the bytes that follow. -/
theorem foldl_bytes_eq (bs : List Byte) (acc : Nat) :
    bs.foldl (fun acc b => acc * 256 + b.toNat) acc = acc * 256 ^ bs.length + bigEndian bs := by
  induction bs generalizing acc with
  | nil => simp [bigEndian]
  | cons b bs ih =>
    rw [bigEndian, List.foldl_cons, List.foldl_cons, ih, ih, List.length_cons, Nat.pow_succ]
    ring

/-- The first byte is the most significant. -/
theorem bigEndian_cons (b : Byte) (bs : List Byte) :
    bigEndian (b :: bs) = b.toNat * 256 ^ bs.length + bigEndian bs := by
  rw [bigEndian, List.foldl_cons, foldl_bytes_eq, Nat.zero_mul, Nat.zero_add]

theorem bigEndian_lt (bs : List Byte) : bigEndian bs < 256 ^ bs.length := by
  induction bs with
  | nil => simp [bigEndian]
  | cons b bs ih =>
    have hb : b.toNat + 1 ≤ 256 := b.isLt
    have hmul := Nat.mul_le_mul_right (256 ^ bs.length) hb
    rw [Nat.add_mul, Nat.one_mul] at hmul
    rw [bigEndian_cons, List.length_cons, Nat.pow_succ]
    omega

/-- The `k`-th byte is the digit that has the bytes after it below it. -/
theorem bigEndian_digit {bs : List Byte} {k : Nat} {b : Byte} (h : bs[k]? = some b) :
    bigEndian bs / 256 ^ (bs.length - 1 - k) % 256 = b.toNat := by
  induction bs generalizing k with
  | nil => simp at h
  | cons b' bs ih =>
    have hlt := bigEndian_lt bs
    have hpos : 0 < 256 ^ bs.length := Nat.pow_pos (by decide)
    rw [bigEndian_cons, List.length_cons, Nat.add_sub_cancel]
    cases k with
    | zero =>
      obtain rfl : b' = b := Option.some.inj h
      rw [Nat.sub_zero, Nat.mul_comm, Nat.mul_add_div hpos, Nat.div_eq_of_lt hlt, Nat.add_zero,
        Nat.mod_eq_of_lt b'.isLt]
    | succ k =>
      rw [List.getElem?_cons_succ] at h
      have hk : k < bs.length := (List.getElem?_eq_some_iff.1 h).1
      have hexp : bs.length = bs.length - 1 - k + 1 + k := by omega
      have hpow : b'.toNat * 256 ^ bs.length = 256 ^ (bs.length - 1 - k) * (256 * (256 ^ k * b'.toNat)) := by
        conv_lhs => rw [hexp]
        ring
      rw [show bs.length - (k + 1) = bs.length - 1 - k by omega, hpow, Nat.mul_add_div (Nat.pow_pos (by decide)),
        Nat.mul_add_mod, ih h]

/-- Settles O11: the addresses are checked first, and the bytes read are the number's digits from the top. -/
theorem memReadIsBoundedAndBigEndian : Obligations.MemReadIsBoundedAndBigEndian := by
  refine fun m addr n hn => ⟨fun hin => ?_, fun hout => ?_⟩
  · have hall : ∀ k < n, inMemory (addr.toNat + k) := fun k hk => (Nat.add_lt_add_left hk _).trans_le hin
    have hlen := length_bytesFrom m addr.toNat n
    refine ⟨_, by rw [memRead, if_pos hall], ?_, fun k hk => ?_⟩
    · exact (bigEndian_lt _).trans_eq (congrArg _ hlen)
    · have hdigit := bigEndian_digit (getElem?_bytesFrom m addr.toNat hk)
      rwa [hlen] at hdigit
  · have hlast : ¬ ∀ k < n, inMemory (addr.toNat + k) := fun hall => by
      have hin : addr.toNat + (n - 1) < 4096 := hall (n - 1) (Nat.sub_one_lt_of_lt hn)
      omega
    rw [memRead, if_neg hlast]

end Sys2Proof.Machine
